-- ==== Sys2Proof/Word.lean ====
section
/-! DEFINITION. The widths of the engine's data (00_scope.md R9, 10_state.md R21). -/

namespace Sys2Proof

/-- A byte, unsigned (R9). -/
abbrev Byte := BitVec 8

/-- A consumer code (R21). -/
abbrev Code16 := BitVec 16

end Sys2Proof
end

