-- ==== Sys2Proof/Config.lean ====
section
/-! DEFINITION. What is fixed when the engine is built: the sizes of 00_scope.md R7 and the open parameters of R8.
The open parameters have no body: nothing proved here knows a value of one. -/

namespace Sys2Proof.Config

/-- Physical input slots (R7, R20). -/
abbrev nSlots : Nat := 6
/-- Key state machine instances, slots 0..3 (R7, R105). -/
abbrev nKeys : Nat := 4
/-- Feedback channels, slots 0..2 (R7, R29). -/
abbrev nFb : Nat := 3
/-- Bytes per configuration record (R7, R70). -/
abbrev recBytes : Nat := 12
/-- Bytes of configuration store (R7, R50). -/
abbrev cfgBytes : Nat := 72
/-- Greatest legal macro length (R7, R81). -/
abbrev macroMax : Nat := 10
/-- Milliseconds after each macro key-down and key-up (R7, R146). -/
abbrev tStep : Nat := 5
/-- Milliseconds after the release of a Macro key (R7, R109). -/
abbrev tCooldown : Nat := 50

/-- The tag byte of a Keyboard record (R75). -/
abbrev tagKeyboard : Byte := 0
/-- The tag byte of a Consumer record (R75). -/
abbrev tagConsumer : Byte := 1
/-- The tag byte of a Macro record (R75). -/
abbrev tagMacro : Byte := 2
/-- Slot that a clockwise detent triggers (R20, R127). -/
abbrev slotCw : Fin nSlots := 4
/-- Slot that a counter-clockwise detent triggers (R20, R127). -/
abbrev slotCcw : Fin nSlots := 5

/-- `T_SETTLE`, milliseconds, open (R8, D7). -/
opaque tSettle : Nat
/-- `T_LOOP`, milliseconds, open (R8, D8). -/
opaque tLoop : Nat
/-- `ENC_CW_LEVEL`, open (R8, D6). -/
opaque encCwLevel : Bool
/-- One of two open bytes that `FB_MAX` and `FB_FLOOR` are the larger and the smaller of. -/
opaque fbLevelA : Byte
/-- The other of the two open bytes. -/
opaque fbLevelB : Byte
/-- `FB_MAX` (R8, D10): with `fbFloor` every pair the spec allows, and no other. -/
def fbMax : Byte := if fbLevelA ≤ fbLevelB then fbLevelB else fbLevelA
/-- `FB_FLOOR` (R8, D10), at most `fbMax`. -/
def fbFloor : Byte := if fbLevelA ≤ fbLevelB then fbLevelA else fbLevelB
/-- One less than `T_WDT`. -/
opaque tWdtPred : Nat
/-- `T_WDT`, a positive number of milliseconds, open (R8, D25). -/
def tWdt : Nat := tWdtPred + 1
/-- One less than `TICKS_PER_MS`. -/
opaque ticksPerMsPred : Nat
/-- `TICKS_PER_MS`, a positive natural, open (R8, D2). -/
def ticksPerMs : Nat := ticksPerMsPred + 1

/-- `PIN_ACTIVE_LEVEL[pin]`, by the pin's number, open (R8, D5): the electrical level that the logical `true` of a pin
stands for. -/
opaque pinActiveLevel : Nat → Bool

/-- The answers to the `SamplePin` calls that no pin script of the state answers, one for each number of the call
(R12, U13): a free value. -/
opaque freePin : Nat → Bool

/-- The byte of the configuration store at each address that a state's store does not list, the same in the whole run
(20_memory.md R55, 10_state.md R35): a free value. -/
opaque freeByte : Nat → Byte

end Sys2Proof.Config
end

