-- ==== Sys2Proof/Syntax.lean ====
section
/-! DEFINITION. A configuration record as the engine's instruction (00_scope.md R2), which is also the descriptor it
decodes to: a tagged variant with one payload per kind (10_state.md R22). -/

namespace Sys2Proof

/-- One constructor per row of the opcode table (30_encoding.md R84, R87). -/
inductive Instr where
  /-- `KBD m, c`: Keyboard, a modifier byte and a scan code (R76, R77). -/
  | kbd (modifier primaryCode : Byte)
  /-- `CONS k`: Consumer, a 16-bit code whose high byte a loaded table keeps zero (R78). -/
  | cons (consumerCode : Code16)
  /-- `MACRO c0, ...`: Macro, its codes in step order; the macro length is the length of the list (R79, R22). -/
  | macroSeq (codes : List Byte)
  deriving DecidableEq, Repr

end Sys2Proof
end

