-- ==== Sys2Proof/WellFormed.lean ====
section
/-! DEFINITION. Which instructions the record formats can express (30_encoding.md R76 to R81). -/

namespace Sys2Proof

/-- Any modifier and scan code is legal (R76, R77); a consumer code comes from one byte (R78); a macro has at most
ten codes (R79, R81). -/
def Instr.wellFormed : Instr → Bool
  | .kbd _ _ => true
  | .cons k => decide (k.toNat ≤ 255)
  | .macroSeq codes => decide (codes.length ≤ Config.macroMax)

end Sys2Proof
end

