-- ==== Sys2Proof/Decode.lean ====
section
/-! DEFINITION. The decoder of configuration records, total on any bytes (30_encoding.md R71 to R83,
40_config_decoder.md R91 to R96), and after it the encoder (R84). -/

namespace Sys2Proof

/-- What the bytes read so far of a record, first byte first, say about it. -/
inductive Decoded where
  /-- A descriptor (R83). -/
  | done (i : Instr)
  /-- The tag byte is none of 0, 1, 2 (R80, R95). -/
  | badTag (tag : Byte)
  /-- A Macro record whose length byte is above 10 (R81, R96). -/
  | badMacroLength (len : Byte)
  /-- Further bytes of the record are meaningful and not yet read (R56). -/
  | needMore
  deriving DecidableEq, Repr

/-- The bytes after the tag of a Keyboard record (R92). -/
def decodeKeyboard : List Byte → Decoded
  | m :: c :: _ => .done (.kbd m c)
  | _ => .needMore

/-- The bytes after the tag of a Consumer record: the one code byte is zero-extended and byte 2 is no part of the
code (R78, R93). -/
def decodeConsumer : List Byte → Decoded
  | k :: _ => .done (.cons (k.zeroExtend 16))
  | [] => .needMore

/-- The bytes after the tag of a Macro record: the length is checked before any code byte counts (R94, R96). -/
def decodeMacro : List Byte → Decoded
  | [] => .needMore
  | n :: codes =>
    if Config.macroMax < n.toNat then .badMacroLength n
    else if codes.length < n.toNat then .needMore
    else .done (.macroSeq (codes.take n.toNat))

/-- `DecodeRecord` (R91) on the bytes of a record, first byte first: a prefix that holds every meaningful byte is
enough, and what follows it plays no part (R82). -/
def decode : List Byte → Decoded
  | [] => .needMore
  | t :: rest =>
    if t = Config.tagKeyboard then decodeKeyboard rest
    else if t = Config.tagConsumer then decodeConsumer rest
    else if t = Config.tagMacro then decodeMacro rest
    else .badTag t

/-- Byte `k` of a record numbered as one value, byte 0 least significant (R72). -/
def recordByte (w k : Nat) : Byte := BitVec.ofNat 8 (w >>> (8 * k))

/-- The twelve bytes of a record given as its `nbits` lowest bits, the bits above them zero (R72). -/
def recordBytes (nbits w : Nat) : List Byte :=
  (List.range Config.recBytes).map (recordByte (w % 2 ^ nbits))

/-- A record's bytes as one number (R72). -/
def recordNumber : List Byte → Nat
  | [] => 0
  | b :: rest => b.toNat + 2 ^ 8 * recordNumber rest

/-- The instruction the decoder reads from a record whose bits are `w`. -/
def decodeTableWord (nbits w : Nat) : Option Instr :=
  match decode (recordBytes nbits w) with
  | .done i => some i
  | _ => none

/-- The meaningful bytes of a record, in order (R86). -/
def encodeMeaningful : Instr → List Byte
  | .kbd m c => [Config.tagKeyboard, m, c]
  | .cons k => [Config.tagConsumer, k.truncate 8]
  | .macroSeq codes => Config.tagMacro :: BitVec.ofNat 8 codes.length :: codes

/-- The record's twelve bytes, unused ones `00` (R84, D28). -/
def encode (i : Instr) : List Byte :=
  encodeMeaningful i ++ List.replicate (Config.recBytes - (encodeMeaningful i).length) 0

end Sys2Proof
end

