-- ==== Sys2Proof/Machine/State.lean ====
section
/-! DEFINITION. The engine's state (10_state.md), the port transactions it performs (00_scope.md R11), and the reasons
a step can stop. -/

namespace Sys2Proof.Machine

/-- The phases of the sequencer, the engine's program counter (10_state.md R30). -/
inductive Phase where
  | gate | bootReq | boot | load | fault | scan | act | act2 | mDown | mW1 | mUp | mW2 | done | cool | commit | next
  | knobA | knobB | kSettle | kWait | feed | endDly | wdr
  deriving DecidableEq, Repr

/-- What the dispatcher is asked to do with a descriptor (R31, 43_action_dispatcher.md R140). -/
inductive KeyEvent where
  | press | release | trigger
  deriving DecidableEq, Repr

/-- The pins `SamplePin` can name (00_scope.md R11). -/
inductive Pin where
  | key1 | key2 | key3 | encSw | encA | encB
  deriving DecidableEq, Repr

/-- One event of the trace: a port transaction with its arguments and its answer (00_scope.md R11). -/
inductive PortEvent where
  /-- `RB(a)=v` -/
  | rb (a : Nat) (v : Byte)
  /-- `SP(p)=b` -/
  | sp (p : Pin) (b : Bool)
  /-- `KD(m,c)` -/
  | kd (m c : Byte)
  /-- `KU(m,c)` -/
  | ku (m c : Byte)
  /-- `CD(k)` -/
  | cd (k : Code16)
  /-- `CU(k)` -/
  | cu (k : Code16)
  /-- `LED(l0,l1,l2)` -/
  | led (l0 l1 l2 : Byte)
  /-- `DLY(n)`, written when the wait begins -/
  | dly (ms : Nat)
  /-- `WDR` -/
  | wdr
  /-- `BOOTLDR` -/
  | bootldr
  deriving DecidableEq, Repr

/-- The causes of `ConfigDecodeError` (60_exceptions.md R201). -/
inductive DecodeCause where
  | badTag | badMacroLength
  deriving DecidableEq, Repr

/-- The register `ERR` as its port shows it (60_exceptions.md R201, 10_state.md R47). -/
structure ErrRecord where
  cause : BitVec 2
  index : BitVec 3
  tag : Byte
  len : Byte
  deriving DecidableEq, Repr

/-- Why a step stops. No rule of the spec stops the engine in this way: each reason marks a combination of registers for
which no rule gives a transition. All are safe (nothing is proved of what the engine would do next). -/
inductive Fault where
  /-- Raised by phase `LOAD`: an address above 71, which the engine never forms (20_memory.md R51; log 6). Safe. -/
  | storeAddressAbsent (a : Nat)
  /-- Raised by `SCAN`, `COMMIT` and `NEXT`: `SL` is 4 or 5, which no key state machine owns (R105; log 11). Safe. -/
  | slotHasNoKey
  /-- Raised by a dispatch phase that no row of 45_main_loop.md R182 and R183 gives the descriptor's kind and the event
  (reading another kind's payload is a fault, 10_state.md R22; log 11). Safe. -/
  | noSuchDispatchRow
  /-- Raised by `M_DOWN` and `M_UP`: `MI` is past the macro's codes (10_state.md R23; log 11). Safe. -/
  | macroIndexPastLength
  /-- Raised by `exec` alone, never by `step`: the engine is in no phase of a dispatch (log 11). Safe. -/
  | notDispatching
  deriving DecidableEq, Repr

/-- Why an instruction has no meaning. No arm of exec answers it: every row of the opcode table is modelled. -/
inductive Refusal where
  /-- Raised by exec for an instruction that has no meaning yet (none today). Safe. -/
  | notModelled (mnemonic : String)
  deriving DecidableEq, Repr

/-- The configuration store's listed bytes by rising address (20_memory.md R50); an address not listed holds a free byte
(log 5). -/
abbrev Memory := List Host.Cell

/-- Every state element of 10_state.md R36, the record buffer of phase `LOAD`, and the engine's surroundings as data
(INVENTORY.md, "State"). -/
structure State where
  /-- `PH` (R30) -/
  ph : Phase
  /-- `LI`, the record being decoded (R31) -/
  li : Fin Config.nSlots
  /-- `SL`, the slot being processed (R31) -/
  sl : Fin Config.nSlots
  /-- `EV`, the event being dispatched (R31) -/
  ev : KeyEvent
  /-- `CP`, the sample just taken (R31) -/
  cp : Bool
  /-- `MI`, the macro step in progress (R31) -/
  mi : Nat
  /-- `DLY`, the clock cycles left of the wait in progress (R31, R214) -/
  dly : Nat
  /-- `DESC[0..5]` (R20 to R24) -/
  desc : Vector Instr Config.nSlots
  /-- `LAST[0..3]`, true is pressed (R25) -/
  last : Vector Bool Config.nKeys
  /-- `SIG[0..2]` (R27) -/
  sig : Vector Bool Config.nFb
  /-- `FB[0..2]` (R29) -/
  fb : Vector Byte Config.nFb
  /-- `CFG_ERR` (R28) -/
  cfgErr : Bool
  /-- `ERR` (R28, R201) -/
  err : ErrRecord
  /-- The bytes of the record being decoded that `LOAD` has read, first byte first (log 2) -/
  recBuf : List Byte
  /-- The configuration store outside the engine (R33, R35) -/
  store : Memory
  /-- The environment's answers to the coming `SamplePin` calls, next first (R12; log 7) -/
  pinScript : List Bool
  /-- How many answers were drawn after the script ran out (log 7) -/
  pinDraws : Nat
  /-- The level of `rst` at the coming rising edges of `clk`, next first (R41; log 8) -/
  rstScript : List Bool
  /-- The port transactions since reset, oldest first (R12; log 9) -/
  trace : List PortEvent
  deriving DecidableEq, Repr

/-- The state when reset is released (R36, 70_reset_and_hazards.md R230). R36 leaves `EV`, `CP`, `MI`, `DESC` and `ERR`
unspecified: the values here are the model's own (DESIGN CHOICE, log 3). -/
def State.reset : State where
  ph := .gate
  li := 0
  sl := 0
  ev := .press
  cp := false
  mi := 0
  dly := 0
  desc := Vector.replicate Config.nSlots (.kbd 0 0)
  last := Vector.replicate Config.nKeys false
  sig := Vector.replicate Config.nFb false
  fb := Vector.replicate Config.nFb Config.fbFloor
  cfgErr := false
  err := ⟨0, 0, 0, 0⟩
  recBuf := []
  store := []
  pinScript := []
  pinDraws := 0
  rstScript := []
  trace := []

end Sys2Proof.Machine
end

