-- ==== Sys2Proof/Machine/Ops.lean ====
section
/-! DEFINITION. The operations every phase is written with: the store, the port transactions, the delay timer, taking
`ConfigDecodeError`, reset. -/

namespace Sys2Proof.Machine

/-! The configuration store -/

/-- What an address the store does not list reads as: a free byte (log 5). -/
def Memory.unlisted (a : Nat) : Byte := Config.freeByte a

/-- The byte at an address: with its unlisted bytes a store is a function of the address (20_memory.md R55). -/
def Memory.read : Memory → Nat → Byte
  | [], a => Memory.unlisted a
  | (b, v) :: rest, a => if a = b then v else Memory.read rest a

/-- The canonical form: addresses strictly rising, all in 0..71, and no cell equal to what its address would read as
unlisted. -/
abbrev Memory.wf (m : Memory) : Prop :=
  m.Pairwise (fun x y => x.1 < y.1) ∧ ∀ c ∈ m, c.1 < Config.cfgBytes ∧ c.2 ≠ Memory.unlisted c.1

/-- Put a cell in its place by address. -/
def Memory.insert : Memory → Nat → Byte → Memory
  | [], a, v => [(a, v)]
  | (b, w) :: rest, a, v =>
    if a < b then (a, v) :: (b, w) :: rest
    else if a = b then (a, v) :: rest
    else (b, w) :: Memory.insert rest a v

/-- Unlist an address. -/
def Memory.erase (m : Memory) (a : Nat) : Memory := m.filter (fun c => c.1 ≠ a)

/-- The loader's write of one byte; the engine itself never writes (20_memory.md R52). There is nothing to write to
above address 71, and the byte an address has unlisted is written by unlisting it. -/
def Memory.write (m : Memory) (a : Nat) (v : Byte) : Memory :=
  if a < Config.cfgBytes then if v = Memory.unlisted a then m.erase a else m.insert a v else m

/-- The loader's write of bytes at rising addresses. -/
def Memory.writeBytes (m : Memory) (a : Nat) : List Byte → Memory
  | [] => m
  | v :: rest => Memory.writeBytes (m.write a v) (a + 1) rest

/-- The base address of a record (R50). -/
def recordBase (i : Fin Config.nSlots) : Nat := Config.recBytes * i.val

/-- `ReadByte` (00_scope.md R11, 10_state.md R42): every address 0..71 has a byte, and no access to one can trap
(20_memory.md R53); no other address exists (R51). -/
def storeRead (a : Nat) (s : State) : Except Fault Byte :=
  if a < Config.cfgBytes then .ok (s.store.read a) else .error (.storeAddressAbsent a)

/-! Port transactions -/

/-- One port transaction happens: it joins the trace (00_scope.md R12). -/
def State.log (e : PortEvent) (s : State) : State := { s with trace := s.trace ++ [e] }

/-- `PH <- p`. -/
def State.goto (p : Phase) (s : State) : State := { s with ph := p }

/-- The environment's answer to the `SamplePin` of this cycle (R12, U13): the script's next, else a free value. -/
def pinAnswer (s : State) : Bool := s.pinScript.headD (Config.freePin s.pinDraws)

/-- `SamplePin(p)` (R11): the answer is taken from the environment and joins the trace. -/
def takeSample (p : Pin) (s : State) : State :=
  { s with
    pinScript := s.pinScript.tail
    pinDraws := if s.pinScript.isEmpty then s.pinDraws + 1 else s.pinDraws
    trace := s.trace ++ [.sp p (pinAnswer s)] }

/-! The delay timer -/

/-- The clock cycles left after this one of a wait of `ms` milliseconds: `DLY = 0` says that the wait begins in this
cycle (70_reset_and_hazards.md R262: a wait of `n` ms takes exactly `n * TICKS_PER_MS` cycles). -/
def ticksLeft (ms : Nat) (s : State) : Nat :=
  (if s.dly = 0 then ms * Config.ticksPerMs else s.dly) - 1

/-- The event of a wait that begins in this cycle (log 1). -/
def delayEvents (ms : Nat) (s : State) : List PortEvent := if s.dly = 0 then [.dly ms] else []

/-- One cycle of `Delay(ms)` of at least one millisecond (R190, R214): count down, and `leave` the phase when no cycle is
left. -/
def delayCycle (ms : Nat) (leave : State → State) (s : State) : State :=
  let t := { s with dly := ticksLeft ms s, trace := s.trace ++ delayEvents ms s }
  if ticksLeft ms s = 0 then leave t else t

/-- The cycle of a phase that waits `ms` milliseconds: `Delay(0)` is no operation and takes no cycle, so with `ms = 0` it
is already the `next` phase's cycle (45_main_loop.md R190, 70_reset_and_hazards.md R262). -/
def waitPhase (ms : Nat) (leave next : State → State) (s : State) : State :=
  if ms = 0 then next (leave s) else delayCycle ms leave s

/-! Taking the exception -/

/-- The code of a cause in `ERR` (60_exceptions.md R201). -/
def DecodeCause.code : DecodeCause → BitVec 2
  | .badTag => 1
  | .badMacroLength => 2

/-- `raise ConfigDecodeError(cause, index, tag, len)`: its entry (R204). `DESC` is not written and nothing else is
saved. There is no return from it; only reset leaves `FAULT` (R209). -/
def raiseConfigDecodeError (cause : DecodeCause) (index : Fin Config.nSlots) (tag len : Byte) (s : State) : State :=
  { s with
    cfgErr := true
    err := ⟨cause.code, BitVec.ofNat 3 index.val, tag, len⟩
    recBuf := []
    ph := .fault }

/-! Reset -/

/-- The level of `rst` at this rising edge of `clk` (10_state.md R41); past the script it is low (log 8). -/
def rstNow (s : State) : Bool := s.rstScript.headD false

/-- The clock edge passes. -/
def passEdge (s : State) : State := { s with rstScript := s.rstScript.tail }

/-- `rst = 1` at a clock edge: every element of the engine takes its reset value and no port transaction happens
(R41, 70_reset_and_hazards.md R230 to R232); the store and the environment stay, and the trace starts anew (R12). -/
def takeReset (s : State) : State :=
  { State.reset with
    store := s.store
    pinScript := s.pinScript
    pinDraws := s.pinDraws
    rstScript := s.rstScript }

end Sys2Proof.Machine
end

