-- ==== Sys2Proof/Machine/Operands.lean ====
section
/-! DEFINITION. How a phase gets at its operands: the descriptor of the current slot and its payload, and what belongs
to a slot (10_state.md R20, R21, R29, R43). -/

namespace Sys2Proof.Machine

/-- A descriptor's kind (10_state.md R21). -/
inductive Kind where
  | keyboard | consumer | macroKind
  deriving DecidableEq, Repr

/-- The kind's number, which is the tag's (R21, R75). -/
def Kind.code : Kind → BitVec 2
  | .keyboard => 0
  | .consumer => 1
  | .macroKind => 2

/-- The event's number (R31). -/
def KeyEvent.code : KeyEvent → BitVec 2
  | .press => 0
  | .release => 1
  | .trigger => 2

/-- The phase's number in `PH` (R30). -/
def Phase.code : Phase → BitVec 5
  | .gate => 0 | .bootReq => 1 | .boot => 2 | .load => 3 | .fault => 4 | .scan => 5 | .act => 6 | .act2 => 7
  | .mDown => 8 | .mW1 => 9 | .mUp => 10 | .mW2 => 11 | .done => 12 | .cool => 13 | .commit => 14 | .next => 15
  | .knobA => 16 | .knobB => 17 | .kSettle => 18 | .kWait => 19 | .feed => 20 | .endDly => 21 | .wdr => 22

/-- `d.kind` (R21). -/
def kindOf : Instr → Kind
  | .kbd _ _ => .keyboard
  | .cons _ => .consumer
  | .macroSeq _ => .macroKind

/-- `d.macroLength`, of a Macro descriptor (R21). -/
abbrev macroLength (codes : List Byte) : Nat := codes.length

/-- `d.macroCodes[j]`, of a Macro descriptor: no value at or past the length (R23). -/
abbrev macroCode (codes : List Byte) (j : Nat) : Option Byte := codes[j]?

/-- Ctrl, Shift and Alt of a modifier byte (30_encoding.md R76). -/
def modCtrl (m : Byte) : Bool := m.getLsbD 0
/-- Bit 1 of a modifier byte (R76). -/
def modShift (m : Byte) : Bool := m.getLsbD 1
/-- Bit 2 of a modifier byte (R76). -/
def modAlt (m : Byte) : Bool := m.getLsbD 2

/-- The descriptor being processed, `DESC[SL]`. -/
def State.descriptor (s : State) : Instr := s.desc[s.sl]

/-- The key state machine that owns a slot: slots 0..3 (41_key_state_machine.md R105). -/
def keyOf (s : Fin Config.nSlots) : Option (Fin Config.nKeys) :=
  if h : s.val < Config.nKeys then some ⟨s.val, h⟩ else none

/-- The feedback channel of a slot: slots 0..2 (10_state.md R29). -/
def channelOf (s : Fin Config.nSlots) : Option (Fin Config.nFb) :=
  if h : s.val < Config.nFb then some ⟨s.val, h⟩ else none

/-- The pin of a key slot (10_state.md R43). -/
def keyPin (k : Fin Config.nKeys) : Pin :=
  match k with
  | 0 => .key1
  | 1 => .key2
  | 2 => .key3
  | 3 => .encSw

/-- The slot after this one, in the order of R178; the last one has none. -/
def slotAfter (s : Fin Config.nSlots) : Option (Fin Config.nSlots) :=
  if h : s.val + 1 < Config.nSlots then some ⟨s.val + 1, h⟩ else none

/-- The slot a detent triggers, by the level of the secondary phase pin (42_knob_dispatcher.md R127). -/
def slotOfDirection (cwLevel b : Bool) : Fin Config.nSlots :=
  if b = cwLevel then Config.slotCw else Config.slotCcw

end Sys2Proof.Machine
end

