-- ==== Sys2Proof/Machine/Flags.lean ====
section
/-! DEFINITION. The engine's flags: edge detection against `LAST` (41_key_state_machine.md R106), the signals `SIG`
(10_state.md R27) and the feedback levels they drive (44_feedback_coordinator.md R166, R167). -/

namespace Sys2Proof.Machine

/-- What one sample is against the stored bit (R106, R113, R114). -/
inductive Edge where
  | rising | falling | hold | idle
  deriving DecidableEq, Repr

/-- R106: `CP = 1, LAST = 0` rising, `CP = 0, LAST = 1` falling, equal no edge (held or idle). -/
def edgeOf (last sample : Bool) : Edge :=
  match last, sample with
  | false, true => .rising
  | true, false => .falling
  | true, true => .hold
  | false, false => .idle

/-- No signal raised. -/
def noSignals : Vector Bool Config.nFb := Vector.replicate Config.nFb false

/-- The signals with that of the slot's channel raised; the encoder switch has no channel (R110, R113). -/
def signalled (sl : Fin Config.nSlots) (sig : Vector Bool Config.nFb) : Vector Bool Config.nFb :=
  match channelOf sl with
  | some c => sig.set c.val true c.isLt
  | none => sig

/-- The new level of one feedback channel (R166, R167): to the maximum on a signal, else one down to the floor. -/
def feedbackLevel (max floor : Byte) (sig : Bool) (level : Byte) : Byte :=
  if sig then max else if floor < level then level - 1 else level

/-- The new levels of the three channels (R169). -/
def feedbackLevels (sig : Vector Bool Config.nFb) (fb : Vector Byte Config.nFb) : Vector Byte Config.nFb :=
  Vector.zipWith (feedbackLevel Config.fbMax Config.fbFloor) sig fb

end Sys2Proof.Machine
end

