-- ==== Sys2Proof/Machine/Keyboard.lean ====
section
/-! DEFINITION. `KBD` (43_action_dispatcher.md R141) and the shape it shares with `CONS`: one emission on Press or
Release, a down and an up on Trigger (45_main_loop.md R182). -/

namespace Sys2Proof.Machine

/-- One cycle of a dispatch of one down and one up transaction (R182): `ACT` emits `down` or `up` by the event, and a
Trigger's `up` follows in `ACT2` with nothing between. -/
def pulseDispatch (down up : PortEvent) (s : State) : Host.Outcome State Fault Refusal :=
  match s.ph, s.ev with
  | .act, .press => .next ((s.log down).goto .done)
  | .act, .release => .next ((s.log up).goto .done)
  | .act, .trigger => .next ((s.log down).goto .act2)
  | .act2, .trigger => .next ((s.log up).goto .done)
  | .act2, _ => .fault .noSuchDispatchRow
  | .mDown, _ | .mW1, _ | .mUp, _ | .mW2, _ => .fault .noSuchDispatchRow
  | _, _ => .fault .notDispatching

/-- `KBD m, c`: key-down and key-up with the stored modifier and code, whole (R144, R145, R147, R157). -/
def execKbd (modifier primaryCode : Byte) (s : State) : Host.Outcome State Fault Refusal :=
  pulseDispatch (.kd modifier primaryCode) (.ku modifier primaryCode) s

end Sys2Proof.Machine
end

