-- ==== Sys2Proof/Machine/Consumer.lean ====
section
/-! DEFINITION. `CONS` (43_action_dispatcher.md R142). -/

namespace Sys2Proof.Machine

/-- `CONS k`: consumer down and up with the stored code (R148, R149, R150). -/
def execCons (consumerCode : Code16) (s : State) : Host.Outcome State Fault Refusal :=
  pulseDispatch (.cd consumerCode) (.cu consumerCode) s

end Sys2Proof.Machine
end

