-- ==== Sys2Proof/Machine/MacroSeq.lean ====
section
/-! DEFINITION. `MACRO` (43_action_dispatcher.md R143) and the macro sequencer (45_main_loop.md R183). -/

namespace Sys2Proof.Machine

/-- `ACT` of a Macro descriptor (R182): Press and Trigger start the macro, Release does nothing (R151 to R153). -/
def macroAct (s : State) : State :=
  match s.ev with
  | .press | .trigger => { s with mi := 0, ph := .mDown }
  | .release => s.goto .done

/-- `M_DOWN` (R183): the key-down of step `MI` with no modifier, or the end of the macro. -/
def macroDown (codes : List Byte) (s : State) : Host.Outcome State Fault Refusal :=
  match macroCode codes s.mi with
  | some c => .next ((s.log (.kd 0 c)).goto .mW1)
  | none => if s.mi = macroLength codes then .next (s.goto .done) else .fault .macroIndexPastLength

/-- `M_UP` (R183): the key-up of step `MI`. -/
def macroUp (codes : List Byte) (s : State) : Host.Outcome State Fault Refusal :=
  match macroCode codes s.mi with
  | some c => .next ((s.log (.ku 0 c)).goto .mW2)
  | none => .fault .macroIndexPastLength

/-- Leaving `M_W2` (R183): on to the next step. -/
def macroAdvance (s : State) : State := { s with mi := s.mi + 1, ph := .mDown }

/-- `MACRO c0, ...`: one cycle of its dispatch (R146, R151, R152, R153). -/
def execMacroSeq (codes : List Byte) (s : State) : Host.Outcome State Fault Refusal :=
  match s.ph with
  | .act => .next (macroAct s)
  | .mDown => macroDown codes s
  | .mW1 => .next (delayCycle Config.tStep (State.goto .mUp) s)
  | .mUp => macroUp codes s
  | .mW2 => .next (delayCycle Config.tStep macroAdvance s)
  | .act2 => .fault .noSuchDispatchRow
  | _ => .fault .notDispatching

end Sys2Proof.Machine
end

