-- ==== Sys2Proof/Machine/Dispatch.lean ====
section
/-! DEFINITION. The Action Dispatcher: one cycle of the dispatch of a descriptor, by its kind
(43_action_dispatcher.md R140). -/

namespace Sys2Proof.Machine

def exec (i : Instr) (s : State) : Host.Outcome State Fault Refusal :=
  match i with
  | .kbd m c => Sys2Proof.Machine.execKbd m c s
  | .cons k => Sys2Proof.Machine.execCons k s
  | .macroSeq codes => Sys2Proof.Machine.execMacroSeq codes s

end Sys2Proof.Machine
end

