-- ==== Sys2Proof/Machine/Feedback.lean ====
section
/-! DEFINITION. The Feedback Coordinator and the end of an iteration (44_feedback_coordinator.md R165 to R169,
45_main_loop.md R185, R186, R191). -/

namespace Sys2Proof.Machine

/-- `LedPush(FB[0], FB[1], FB[2])` (R168). -/
def ledEvent (fb : Vector Byte Config.nFb) : PortEvent := .led fb[0] fb[1] fb[2]

/-- `FEED`: the new levels, and their push (R166 to R169). -/
def phaseFeed (s : State) : State :=
  { s.log (ledEvent (feedbackLevels s.sig s.fb)) with fb := feedbackLevels s.sig s.fb, ph := .endDly }

/-- `WDR`: the watchdog refresh, and the start of the next iteration (R186). -/
def phaseWdr (s : State) : State := { s.log .wdr with sig := noSignals, sl := 0, ph := .scan }

/-- `END_DLY` (R185, R191). -/
def phaseEndDly (s : State) : State := waitPhase Config.tLoop (State.goto .wdr) phaseWdr s

end Sys2Proof.Machine
end

