-- ==== Sys2Proof/Machine/KeyStateMachine.lean ====
section
/-! DEFINITION. The phases of the four key state machines (45_main_loop.md R181, R184; 41_key_state_machine.md). -/

namespace Sys2Proof.Machine

/-- What the edge of slot `SL` leads to (R181): a dispatch, a signal again while held, or nothing. -/
def scanEdge (e : Edge) (s : State) : State :=
  match e with
  | .rising => { s with ev := .press, ph := .act }
  | .falling => { s with ev := .release, ph := .act }
  | .hold => { s with sig := signalled s.sl s.sig, ph := .next }
  | .idle => s.goto .next

/-- `SCAN` (R181): sample the slot's pin into `CP` and compare it with `LAST[SL]`. -/
def phaseScan (s : State) : Host.Outcome State Fault Refusal :=
  match keyOf s.sl with
  | some k => .next (scanEdge (edgeOf s.last[k] (pinAnswer s)) { takeSample (keyPin k) s with cp := pinAnswer s })
  | none => .fault .slotHasNoKey

/-- The phase after a finished dispatch (R184): the knob settles, a Macro key's release cools down (R109), the rest
commits. -/
def phaseAfterDispatch (ev : KeyEvent) (kind : Kind) : Phase :=
  match ev, kind with
  | .trigger, _ => .kSettle
  | .release, .macroKind => .cool
  | _, _ => .commit

/-- `DONE` (R184). -/
def phaseDone (s : State) : State := s.goto (phaseAfterDispatch s.ev (kindOf s.descriptor))

/-- `COOL` (R184, R109). -/
def phaseCool (s : State) : State := delayCycle Config.tCooldown (State.goto .commit) s

/-- `COMMIT` (R184): `LAST[SL] <- CP` (R112), and the signal of a rising edge (R110). -/
def phaseCommit (s : State) : Host.Outcome State Fault Refusal :=
  match keyOf s.sl with
  | some k =>
    .next { s with
      last := s.last.set k.val s.cp k.isLt
      sig := if s.cp then signalled s.sl s.sig else s.sig
      ph := .next }
  | none => .fault .slotHasNoKey

/-- `NEXT` (R184): the next key slot, or the knob after the last one. -/
def phaseNext (s : State) : Host.Outcome State Fault Refusal :=
  if h : s.sl.val + 1 < Config.nKeys then .next { s with sl := ⟨s.sl.val + 1, Nat.lt_trans h (by decide)⟩, ph := .scan }
  else if s.sl.val + 1 = Config.nKeys then .next (s.goto .knobA)
  else .fault .slotHasNoKey

end Sys2Proof.Machine
end

