-- ==== Sys2Proof/Machine/Knob.lean ====
section
/-! DEFINITION. The phases of the Knob Dispatcher (45_main_loop.md R187; 42_knob_dispatcher.md). -/

namespace Sys2Proof.Machine

/-- `KNOB_A`: is there a detent (R125, R126)? -/
def phaseKnobA (s : State) : State := (takeSample .encA s).goto (if pinAnswer s then .knobB else .feed)

/-- `KNOB_B`: the direction from one sample, and a Trigger for its slot (R127, R128). -/
def phaseKnobB (s : State) : State :=
  { takeSample .encB s with sl := slotOfDirection Config.encCwLevel (pinAnswer s), ev := .trigger, ph := .act }

/-- `K_WAIT`: one poll of the primary phase pin a cycle until it is inactive (R132, R134). -/
def phaseKWait (s : State) : State := (takeSample .encA s).goto (if pinAnswer s then .kWait else .feed)

/-- `K_SETTLE` (R129). -/
def phaseKSettle (s : State) : State := waitPhase Config.tSettle (State.goto .kWait) phaseKWait s

end Sys2Proof.Machine
end

