-- ==== Sys2Proof/Machine/Startup.lean ====
section
/-! DEFINITION. The start-up phases (45_main_loop.md R180): the bootloader gate and the Config Decoder. -/

namespace Sys2Proof.Machine

/-- `GATE` (R176, R180). -/
def phaseGate (s : State) : State :=
  { takeSample .key1 s with li := 0, ph := if pinAnswer s then .bootReq else .load }

/-- `BOOTREQ` (R177). -/
def phaseBootReq (s : State) : State := (s.log .bootldr).goto .boot

/-- Record `LI` is decoded (40_config_decoder.md R90): on to the next record, or to the first iteration. -/
def afterRecord (s : State) : State :=
  match slotAfter s.li with
  | some i => { s with li := i, ph := .load }
  | none => { s with sl := 0, sig := noSignals, ph := .scan }

/-- What the bytes of record `LI` read so far, `got`, lead to (R91 to R96). -/
def loadDecoded (got : List Byte) (s : State) : State :=
  match decode got with
  | .needMore => { s with recBuf := got }
  | .done i => afterRecord { s with desc := s.desc.set s.li.val i s.li.isLt, recBuf := [] }
  | .badTag t => raiseConfigDecodeError .badTag s.li t 0 s
  | .badMacroLength n => raiseConfigDecodeError .badMacroLength s.li Config.tagMacro n s

/-- The address of the next byte `LOAD` reads (20_memory.md R51). -/
def loadAddress (s : State) : Nat := recordBase s.li + s.recBuf.length

/-- One cycle of `LOAD`: one byte is read, and the record is decoded as soon as its meaningful bytes are there
(R91, R180; log 2). -/
def phaseLoad (s : State) : Host.Outcome State Fault Refusal :=
  match storeRead (loadAddress s) s with
  | .ok v => .next (loadDecoded (s.recBuf ++ [v]) (s.log (.rb (loadAddress s) v)))
  | .error f => .fault f

end Sys2Proof.Machine
end

