-- ==== Sys2Proof/Machine/Sequencer.lean ====
section
/-! DEFINITION. The main-loop sequencer: one clock cycle by the phase register (45_main_loop.md R179 to R187), and the
placing of a record where the next cycle runs it. -/

namespace Sys2Proof.Machine

/-- One cycle of the engine with `rst` low. The phases of a dispatch run the descriptor of the current slot; `BOOT` and
`FAULT` stay as they are for ever (R177, R204). -/
def phaseCycle (s : State) : Host.Outcome State Fault Refusal :=
  match s.ph with
  | .gate => .next (phaseGate s)
  | .bootReq => .next (phaseBootReq s)
  | .boot => .next s
  | .load => phaseLoad s
  | .fault => .next s
  | .scan => phaseScan s
  | .act => exec s.descriptor s
  | .act2 => exec s.descriptor s
  | .mDown => exec s.descriptor s
  | .mW1 => exec s.descriptor s
  | .mUp => exec s.descriptor s
  | .mW2 => exec s.descriptor s
  | .done => .next (phaseDone s)
  | .cool => .next (phaseCool s)
  | .commit => phaseCommit s
  | .next => phaseNext s
  | .knobA => .next (phaseKnobA s)
  | .knobB => .next (phaseKnobB s)
  | .kSettle => .next (phaseKSettle s)
  | .kWait => .next (phaseKWait s)
  | .feed => .next (phaseFeed s)
  | .endDly => .next (phaseEndDly s)
  | .wdr => .next (phaseWdr s)

/-- One rising edge of `clk` (10_state.md R41): reset while `rst` is high, else one cycle. -/
def clockEdge (s : State) : Host.Outcome State Fault Refusal :=
  if rstNow s then .next (takeReset (passEdge s)) else phaseCycle (passEdge s)

/-- A record stored as the current slot's, in the store and decoded in the descriptor table, with the dispatch about to
begin and `rst` low (log 12). -/
def placeDecoded (bytes : List Byte) (i : Instr) (s : State) : State :=
  { s with
    store := s.store.writeBytes (recordBase s.sl) bytes
    desc := s.desc.set s.sl.val i s.sl.isLt
    ph := .act
    rstScript := [] }

/-- A record that decodes to nothing, stored as the record about to be decoded: the decoder then raises its error
(log 12). -/
def placeUndecoded (bytes : List Byte) (s : State) : State :=
  { s with
    store := s.store.writeBytes (recordBase s.li) bytes
    recBuf := []
    ph := .load
    rstScript := [] }

/-- The record with the bits `w` placed so that the next cycle runs it (log 12). -/
def placeRecord (nbits w : Nat) (s : State) : State :=
  match decodeTableWord nbits w with
  | some i => placeDecoded (recordBytes nbits w) i s
  | none => placeUndecoded (recordBytes nbits w) s

end Sys2Proof.Machine
end

