-- ==== Sys2Proof/Machine/Step.lean ====
section
/-! DEFINITION. One step of the machine, and the host's way to place a record. -/

namespace Sys2Proof.Machine

/-- One step is one rising edge of the clock (45_main_loop.md R179, 10_state.md R41; log 1). -/
def step (s : State) : Host.Outcome State Fault Refusal := clockEdge s

/-- The state with a record placed where the next step runs it (log 12). -/
def State.withFetchWord (s : State) (nbits w : Nat) : State := placeRecord nbits w s

end Sys2Proof.Machine
end

