-- ==== Sys2Proof/Machine/Ports.lean ====
section
/-! DEFINITION. The engine's ports as signals (10_state.md R40 to R47): what each port carries in the cycle of a port
transaction, read off the transaction. A data output has no value while its `valid` is low (log 16). -/

namespace Sys2Proof.Machine

/-- The HID port's outputs in a cycle with `hid_valid = 1` (R44). -/
structure HidPort where
  op : BitVec 2
  mod : Byte
  code : Code16
  deriving DecidableEq, Repr

/-- `hid_op`, `hid_mod`, `hid_code` of a transaction, none if `hid_valid` is low in it (R44). -/
def PortEvent.hidPort : PortEvent → Option HidPort
  | .kd m c => some ⟨0, m, c.zeroExtend 16⟩
  | .ku m c => some ⟨1, m, c.zeroExtend 16⟩
  | .cd k => some ⟨2, 0, k⟩
  | .cu k => some ⟨3, 0, k⟩
  | _ => none

/-- `led_level`, none if `led_valid` is low (R45): `FB[2] ++ FB[1] ++ FB[0]`. -/
def PortEvent.ledPort : PortEvent → Option (BitVec 24)
  | .led l0 l1 l2 => some (l2 ++ l1 ++ l0)
  | _ => none

/-- `cfg_addr`, none if `cfg_rd` is low (R42). -/
def PortEvent.cfgPort : PortEvent → Option (BitVec 7)
  | .rb a _ => some (BitVec.ofNat 7 a)
  | _ => none

/-- `wdt_kick` (R46). -/
def PortEvent.wdtKick : PortEvent → Bool
  | .wdr => true
  | _ => false

/-- `boot_req` (R46). -/
def PortEvent.bootReq : PortEvent → Bool
  | .bootldr => true
  | _ => false

/-- `cfg_error` (R47). -/
def cfgError (s : State) : Bool := s.cfgErr

/-- `err_cause`, `err_index`, `err_tag`, `err_len`, meaningful while `cfg_error = 1` (R47). -/
def errPort (s : State) : Option ErrRecord := if s.cfgErr then some s.err else none

/-- The number of a pin, in the order of R43. -/
def Pin.number : Pin → Nat
  | .key1 => 0 | .key2 => 1 | .key3 => 2 | .encSw => 3 | .encA => 4 | .encB => 5

/-- The logical value of an electrical level, a conversion outside the engine (R43, 00_scope.md R8). -/
def logicalLevel (p : Pin) (electrical : Bool) : Bool := electrical == Config.pinActiveLevel p.number

end Sys2Proof.Machine
end

