-- ==== Sys2Proof/Machine/Program.lean ====
section
/-! DEFINITION. The engine as a program (45_main_loop.md R178): each component as one operation, with the trace it leaves.
The phases of 45_main_loop.md R180 to R187 are the same program cut into steps (R179). -/

namespace Sys2Proof.Machine

/-! The Action Dispatcher (43_action_dispatcher.md) -/

/-- The trace of `Delay(n)` (45_main_loop.md R190). -/
def delayTrace (ms : Nat) : List PortEvent := if ms = 0 then [] else [.dly ms]

/-- `MacroStep(c)` (R146). -/
def macroStepTrace (c : Byte) : List PortEvent :=
  [.kd 0 c] ++ delayTrace Config.tStep ++ [.ku 0 c] ++ delayTrace Config.tStep

/-- The whole macro (R151). -/
def macroTrace (codes : List Byte) : List PortEvent := codes.flatMap macroStepTrace

/-- `Dispatch(d, ev)` (R140): the nine cases of R144 to R153. -/
def dispatchTrace : Instr → KeyEvent → List PortEvent
  | .kbd m c, .press => [.kd m c]
  | .kbd m c, .release => [.ku m c]
  | .kbd m c, .trigger => [.kd m c, .ku m c]
  | .cons k, .press => [.cd k]
  | .cons k, .release => [.cu k]
  | .cons k, .trigger => [.cd k, .cu k]
  | .macroSeq codes, .press => macroTrace codes
  | .macroSeq _, .release => []
  | .macroSeq codes, .trigger => macroTrace codes

/-! The Key State Machine (41_key_state_machine.md) -/

/-- What one call of `OnSample` does: its transactions, the new `LAST` bit, and whether it signals "activate". -/
structure KeyResult where
  events : List PortEvent
  last : Bool
  signal : Bool
  deriving DecidableEq, Repr

/-- `OnSample` on a slot's descriptor, its `LAST` bit and the sample (R115). -/
def onSample (d : Instr) (last p : Bool) : KeyResult :=
  if p ≠ last then
    if p then ⟨dispatchTrace d .press, p, true⟩
    else ⟨dispatchTrace d .release ++ (if kindOf d = .macroKind then delayTrace Config.tCooldown else []), p, false⟩
  else ⟨[], last, last⟩

/-! The Knob Dispatcher (42_knob_dispatcher.md) -/

/-- What the environment does at the knob in one iteration: no detent, or a detent with the level `b` of the secondary
phase pin that then stays active for `polls` polls. -/
structure Detent where
  b : Bool
  polls : Nat
  deriving DecidableEq, Repr

/-- `Knob()` (R133). -/
def knobTrace (desc : Vector Instr Config.nSlots) : Option Detent → List PortEvent
  | none => [.sp .encA false]
  | some d =>
    [.sp .encA true, .sp .encB d.b] ++ dispatchTrace desc[slotOfDirection Config.encCwLevel d.b] .trigger
      ++ delayTrace Config.tSettle ++ List.replicate d.polls (.sp .encA true) ++ [.sp .encA false]

/-- The answers the knob takes from the environment (R133). -/
def knobAnswers : Option Detent → List Bool
  | none => [false]
  | some d => [true, d.b] ++ List.replicate d.polls true ++ [false]

/-! One iteration (45_main_loop.md R178) -/

/-- The environment's part of one iteration: the samples of the four keys and what happens at the knob. -/
structure IterationInput where
  keys : Vector Bool Config.nKeys
  knob : Option Detent
  deriving DecidableEq, Repr

/-- The answers to the iteration's `SamplePin` calls, in the order the engine makes them. -/
def IterationInput.answers (x : IterationInput) : List Bool := x.keys.toList ++ knobAnswers x.knob

/-- The slot of a key state machine (41_key_state_machine.md R105). -/
def keySlot (k : Fin Config.nKeys) : Fin Config.nSlots := ⟨k.val, Nat.lt_trans k.isLt (by decide)⟩

/-- `OnSample` of key `k` in an iteration. -/
def keyResult (desc : Vector Instr Config.nSlots) (last keys : Vector Bool Config.nKeys) (k : Fin Config.nKeys) :
    KeyResult :=
  onSample desc[keySlot k] last[k] keys[k]

/-- The sample of key `k` and what its state machine does with it. -/
def keyTrace (desc : Vector Instr Config.nSlots) (last keys : Vector Bool Config.nKeys) (k : Fin Config.nKeys) :
    List PortEvent :=
  .sp (keyPin k) keys[k] :: (keyResult desc last keys k).events

/-- The signals raised in the iteration, slots 0..2 (R110, R113). -/
def iterationSig (desc : Vector Instr Config.nSlots) (last keys : Vector Bool Config.nKeys) :
    Vector Bool Config.nFb :=
  #v[(keyResult desc last keys 0).signal, (keyResult desc last keys 1).signal, (keyResult desc last keys 2).signal]

/-- `LAST` after the iteration. -/
def iterationLast (desc : Vector Instr Config.nSlots) (last keys : Vector Bool Config.nKeys) :
    Vector Bool Config.nKeys :=
  #v[(keyResult desc last keys 0).last, (keyResult desc last keys 1).last, (keyResult desc last keys 2).last,
    (keyResult desc last keys 3).last]

/-- `FB` after the iteration (44_feedback_coordinator.md R169). -/
def iterationFb (desc : Vector Instr Config.nSlots) (last keys : Vector Bool Config.nKeys)
    (fb : Vector Byte Config.nFb) : Vector Byte Config.nFb :=
  feedbackLevels (iterationSig desc last keys) fb

/-- The whole iteration's trace (R178). -/
def iterationTrace (desc : Vector Instr Config.nSlots) (last : Vector Bool Config.nKeys) (fb : Vector Byte Config.nFb)
    (x : IterationInput) : List PortEvent :=
  keyTrace desc last x.keys 0 ++ keyTrace desc last x.keys 1 ++ keyTrace desc last x.keys 2
    ++ keyTrace desc last x.keys 3 ++ knobTrace desc x.knob ++ [ledEvent (iterationFb desc last x.keys fb)]
    ++ delayTrace Config.tLoop ++ [.wdr]

/-- The trace of iterations one after the other, from the given `LAST` and `FB` (R178). -/
def iterationsTrace (desc : Vector Instr Config.nSlots) (last : Vector Bool Config.nKeys)
    (fb : Vector Byte Config.nFb) : List IterationInput → List PortEvent
  | [] => []
  | x :: xs =>
    iterationTrace desc last fb x
      ++ iterationsTrace desc (iterationLast desc last x.keys) (iterationFb desc last x.keys fb) xs

/-- `LAST` after iterations one after the other. -/
def iterationsLast (desc : Vector Instr Config.nSlots) (last : Vector Bool Config.nKeys) :
    List IterationInput → Vector Bool Config.nKeys
  | [] => last
  | x :: xs => iterationsLast desc (iterationLast desc last x.keys) xs

/-- `FB` after iterations one after the other. -/
def iterationsFb (desc : Vector Instr Config.nSlots) (last : Vector Bool Config.nKeys) (fb : Vector Byte Config.nFb) :
    List IterationInput → Vector Byte Config.nFb
  | [] => fb
  | x :: xs => iterationsFb desc (iterationLast desc last x.keys) (iterationFb desc last x.keys fb) xs

/-- The key of a feedback channel (10_state.md R29). -/
def channelKey (c : Fin Config.nFb) : Fin Config.nKeys := ⟨c.val, Nat.lt_trans c.isLt (by decide)⟩

/-! The load (40_config_decoder.md) -/

/-- The reads of bytes at rising addresses (R91). -/
def readsTrace (a : Nat) : List Byte → List PortEvent
  | [] => []
  | v :: rest => .rb a v :: readsTrace (a + 1) rest

/-- `DecodeRecord(i)` of a record that holds `d` (R92 to R94). -/
def recordTrace (i : Fin Config.nSlots) (d : Instr) : List PortEvent := readsTrace (recordBase i) (encodeMeaningful d)

/-- The load of a table (R97). -/
def loadTrace (tab : Vector Instr Config.nSlots) : List PortEvent :=
  recordTrace 0 tab[0] ++ recordTrace 1 tab[1] ++ recordTrace 2 tab[2] ++ recordTrace 3 tab[3] ++ recordTrace 4 tab[4]
    ++ recordTrace 5 tab[5]

/-! Time (00_scope.md R13) -/

/-- The milliseconds of one event. -/
def PortEvent.ms : PortEvent → Nat
  | .dly n => n
  | _ => 0

/-- The sum of the `DLY` events, a lower bound of the time a trace takes (R13). -/
def traceMs (t : List PortEvent) : Nat := (t.map PortEvent.ms).sum

end Sys2Proof.Machine
end

