-- ==== Sys2Proof/Safety.lean ====
section
/-! DEFINITION. What a legal state of the engine is, and the premises claims about runs are stated with. -/

namespace Sys2Proof.Machine

/-- The wait a phase performs, in milliseconds (45_main_loop.md R195): none in the other phases. -/
def Phase.waitMs : Phase → Nat
  | .mW1 | .mW2 => Config.tStep
  | .cool => Config.tCooldown
  | .kSettle => Config.tSettle
  | .endDly => Config.tLoop
  | _ => 0

/-- The phases in which a key state machine owns the slot (R181, R184). -/
def Phase.ofKey : Phase → Bool
  | .scan | .cool | .commit | .next => true
  | _ => false

/-- The phases from an edge to the end of its dispatch (R182 to R184). -/
def Phase.dispatching : Phase → Bool
  | .act | .act2 | .mDown | .mW1 | .mUp | .mW2 | .done => true
  | _ => false

/-- The phases of the macro sequencer (R183). -/
def Phase.inMacro : Phase → Bool
  | .mDown | .mW1 | .mUp | .mW2 => true
  | _ => false

/-- The phases in which a key's edge is pending: dispatched but not yet stored in `LAST` (R111). -/
def Phase.edgePending : Phase → Bool
  | .act | .act2 | .mDown | .mW1 | .mUp | .mW2 | .done | .cool | .commit => true
  | _ => false

/-- The number of codes of a descriptor, 0 for another kind. -/
def codeCount : Instr → Nat
  | .macroSeq codes => codes.length
  | _ => 0

/-- An error record that a `ConfigDecodeError` can leave (60_exceptions.md R201 to R203). -/
def ErrRecord.legal (e : ErrRecord) : Prop :=
  e.index.toNat ≤ 5 ∧
    ((e.cause = 1 ∧ 3 ≤ e.tag.toNat ∧ e.len = 0) ∨ (e.cause = 2 ∧ e.tag = Config.tagMacro ∧ 11 ≤ e.len.toNat))

/-- The states the rules can reach satisfy this; every step keeps it. -/
structure State.Legal (s : State) : Prop where
  /-- The store is in canonical form, addresses 0..71 (20_memory.md R50). -/
  store_wf : s.store.wf
  /-- Every descriptor is one the decoder can build (10_state.md R22, R23). -/
  desc_wf : ∀ i : Fin Config.nSlots, s.desc[i].wellFormed = true
  /-- A key phase has a key slot (R181, R184). -/
  key_slot : s.ph.ofKey = true → s.sl.val < Config.nKeys
  /-- `Trigger` belongs to slots 4 and 5, `Press` and `Release` to slots 0..3 (R140). -/
  event_slot : s.ph.dispatching = true → (s.ev = .trigger ↔ Config.nKeys ≤ s.sl.val)
  /-- `ACT2` is entered only from the two Trigger rows (R182). -/
  act2_row : s.ph = .act2 → s.ev = .trigger ∧ kindOf s.descriptor ≠ .macroKind
  /-- The macro sequencer runs a Macro on Press or Trigger (R182, R183). -/
  macro_row : s.ph.inMacro = true → kindOf s.descriptor = .macroKind ∧ s.ev ≠ .release
  /-- `MI` never passes the macro length (R183). -/
  mi_le : s.ph = .mDown → s.mi ≤ codeCount s.descriptor
  /-- Inside a macro step there is a code (R183). -/
  mi_lt : s.ph = .mW1 ∨ s.ph = .mUp ∨ s.ph = .mW2 → s.mi < codeCount s.descriptor
  /-- `MI` fits its range 0..10 (10_state.md R31). -/
  mi_range : s.mi ≤ Config.macroMax
  /-- A pending edge differs from `LAST`, and `CP` is what its event says (R106, R181). -/
  pending : s.ph.edgePending = true → ∀ k : Fin Config.nKeys, keyOf s.sl = some k →
    s.cp ≠ s.last[k] ∧ (s.cp = true ↔ s.ev = .press)
  /-- `DLY` counts only in a waiting phase, and below the whole wait (R214). -/
  dly_lt : s.dly ≤ s.ph.waitMs * Config.ticksPerMs - 1
  /-- A brightness is between the floor and the maximum (44_feedback_coordinator.md R167). -/
  fb_range : ∀ c : Fin Config.nFb, Config.fbFloor ≤ s.fb[c] ∧ s.fb[c] ≤ Config.fbMax
  /-- Outside `LOAD` no record is half read. -/
  buf_empty : s.ph ≠ .load → s.recBuf = []
  /-- In `LOAD` the record read so far is not finished. -/
  buf_open : decode s.recBuf = .needMore
  /-- The error flag is up exactly in `FAULT` (60_exceptions.md R204). -/
  err_phase : s.cfgErr = true ↔ s.ph = .fault
  /-- The error record is one of R201's. -/
  err_legal : s.cfgErr = true → s.err.legal

/-- The store holds, in every record, bytes that begin with the meaningful bytes of the table's descriptor. -/
def HoldsRecord (m : Memory) (i : Fin Config.nSlots) (d : Instr) : Prop :=
  ∀ k v, (encodeMeaningful d)[k]? = some v → m.read (recordBase i + k) = v

/-- `k` steps, stopping at the first that does not go on (the host's run of the machine, in the engine's own types). -/
def runFor : Nat → State → Host.Outcome State Fault Refusal
  | 0, s => .next s
  | k + 1, s =>
    match step s with
    | .next t => runFor k t
    | .fault f => .fault f
    | .refused r => .refused r

/-- `rst` stays low in the run (60_exceptions.md R215: no reset from outside). -/
def NoReset (s : State) : Prop := s.rstScript = []

/-- The register combinations in which the dispatch of a descriptor has no row of 45_main_loop.md R182 and R183, and the
stop each leads to (10_state.md R22, R23; log 11). -/
def DispatchStops (i : Instr) (s : State) (f : Fault) : Prop :=
  (f = .noSuchDispatchRow ∧
    ((s.ph = .act2 ∧ (s.ev ≠ .trigger ∨ kindOf i = .macroKind)) ∨ (s.ph.inMacro = true ∧ kindOf i ≠ .macroKind))) ∨
  (f = .macroIndexPastLength ∧ kindOf i = .macroKind ∧
    ((s.ph = .mDown ∧ codeCount i < s.mi) ∨ (s.ph = .mUp ∧ codeCount i ≤ s.mi))) ∨
  (f = .notDispatching ∧ (s.ph.dispatching = false ∨ s.ph = .done))

/-- Between two `WDR` events, and before the first, less than `timeout` milliseconds of `DLY` pass: what a watchdog with
that timeout asks of the events (60_exceptions.md R215; the other steps take a time no rule states, 00_scope.md R13). -/
def WithinWatchdog (timeout : Nat) (t : List PortEvent) : Prop :=
  ∀ pre mid post, t = pre ++ mid ++ post → PortEvent.wdr ∉ mid → traceMs mid < timeout

end Sys2Proof.Machine
end

