-- ==== Sys2Proof/Certificates/Slice0/Obligations.lean ====
section
/-! DEFINITION. The statements for the provers, in the order of the spec: records, step and start-up, dispatch, keys,
knob, feedback, iterations, the machine as a whole. -/

open Sys2Proof Sys2Proof.Machine

/-! Records (30_encoding.md) -/

/-- Decoding the encoded record of a well-formed instruction gives it back, as bytes and as one number (the numbering is
R72's, an inference of the spec; the zeros of unused bytes are the spec's decision D28). -/
def Obligations.DecodeOfEncodeIsTheInstruction : Prop :=
  ∀ i : Instr, i.wellFormed = true →
    (encode i).length = Config.recBytes ∧ decode (encode i) = .done i ∧
      decodeTableWord (8 * Config.recBytes) (recordNumber (encode i)) = some i

/-- R86: re-encoding what a 12-byte record decodes to reproduces its meaningful bytes, for every legal record; what it
decodes to is well formed. -/
def Obligations.ReencodingReproducesMeaningfulBytes : Prop :=
  ∀ (bytes : List Byte) (i : Instr), bytes.length = Config.recBytes → decode bytes = .done i →
    i.wellFormed = true ∧ bytes.take (encodeMeaningful i).length = encodeMeaningful i

/-- R83: each 12-byte record has exactly one outcome, by its tag and, for tag 2, its length byte. -/
def Obligations.EveryRecordHasOneOutcome : Prop :=
  ∀ (t n c : Byte) (rest : List Byte), rest.length = 9 →
    decode (t :: n :: c :: rest) =
      if t = 0 then .done (.kbd n c)
      else if t = 1 then .done (.cons (BitVec.ofNat 16 n.toNat))
      else if t = 2 then
        if n.toNat ≤ 10 then .done (.macroSeq ((c :: rest).take n.toNat)) else .badMacroLength n
      else .badTag t

/-- R82, R56 (an inference and a decision, D17, of the spec): once the bytes read decide a record, no byte after them
changes the outcome. -/
def Obligations.UnusedBytesNeverMatter : Prop :=
  ∀ pre rest : List Byte, decode pre ≠ .needMore → decode (pre ++ rest) = decode pre

/-- Words written out from the layout table (R71, with R72's numbering) and the vectors D-2, D-6, D-8, D-11 and D-14 of
95_test_vectors.md. -/
def Obligations.SpecWordsDecodeAsWritten : Prop :=
  decodeTableWord 96 0xFF0700 = some (.kbd 7 0xFF) ∧
    decodeTableWord 96 0x7FFF01 = some (.cons 0x00FF) ∧
    decodeTableWord 96 0x2C0102 = some (.macroSeq [0x2C]) ∧
    decodeTableWord 96 0xFF02 = none ∧
    decodeTableWord 96 0x80 = none

/-! The step, and placing a record -/

/-- In a phase of a dispatch a step with `rst` low is one cycle of the current slot's descriptor (R182, R183). -/
def Obligations.StepRunsTheCurrentDescriptor : Prop :=
  ∀ s : State, rstNow s = false →
    (s.ph = .act ∨ s.ph = .act2 ∨ s.ph = .mDown ∨ s.ph = .mW1 ∨ s.ph = .mUp ∨ s.ph = .mW2) →
    step s = exec s.desc[s.sl] { s with rstScript := s.rstScript.tail }

/-- A placed record is in the store, is what its slot's descriptor decodes to, and is what the next step runs (the
model's loader, log 12). -/
def Obligations.PlacedRecordRunsAtTheNextStep : Prop :=
  ∀ (s : State) (nbits w : Nat) (i : Instr), decodeTableWord nbits w = some i →
    (∀ k, k < Config.recBytes →
      (s.withFetchWord nbits w).store.read (Config.recBytes * s.sl.val + k) = recordByte (w % 2 ^ nbits) k) ∧
    (s.withFetchWord nbits w).desc[s.sl] = i ∧
    step (s.withFetchWord nbits w) = exec i (s.withFetchWord nbits w)

/-! Start-up (45_main_loop.md R176 to R180, 40_config_decoder.md) -/

/-- The bootloader gate (R180; the gate after every reset is the spec's decision D21): one sample of Key1 decides
between the bootloader request and the load. -/
def Obligations.GateSamplesKeyOneOnce : Prop :=
  ∀ s : State, rstNow s = false → s.ph = .gate →
    step s = .next { s with
      ph := if pinAnswer s then .bootReq else .load
      li := 0
      rstScript := s.rstScript.tail
      pinScript := s.pinScript.tail
      pinDraws := if s.pinScript = [] then s.pinDraws + 1 else s.pinDraws
      trace := s.trace ++ [.sp .key1 (pinAnswer s)] }

/-- R177 (the spec's decision D21): with Key1 pressed at the gate the run is `SP(KEY1)=1, BOOTLDR` and then nothing,
for ever; nothing else of the state changes. -/
def Obligations.BootloaderRequestThenNothing : Prop :=
  ∀ (s : State) (rest : List Bool) (k : Nat), NoReset s → s.ph = .gate → s.pinScript = true :: rest →
    runFor (k + 2) s = .next { s with
      ph := .boot
      li := 0
      pinScript := rest
      trace := s.trace ++ [.sp .key1 true, .bootldr] }

/-- `BOOT` and `FAULT` are never left but by reset, and nothing happens in them (R180; halting there is the spec's
decisions D21 and D13). -/
def Obligations.TerminalPhasesStayForEver : Prop :=
  ∀ (s : State) (k : Nat), NoReset s → (s.ph = .boot ∨ s.ph = .fault) → runFor k s = .next s

/-- One cycle of `LOAD` reads one byte of record `LI`, whatever the store holds (no access traps, R53); the record's
descriptor is written when its meaningful bytes are read, and the load goes on to the next record or to the first
iteration (R91, R180; the order of records is the spec's decision D14, the buffer of the bytes read is the model's,
log 2). -/
def Obligations.LoadReadsOneByteACycle : Prop :=
  ∀ (s : State) (v : Byte), rstNow s = false → s.ph = .load →
    Config.recBytes * s.li.val + s.recBuf.length < Config.cfgBytes →
    s.store.read (Config.recBytes * s.li.val + s.recBuf.length) = v →
    ∃ t, step s = .next t ∧
      t.trace = s.trace ++ [.rb (Config.recBytes * s.li.val + s.recBuf.length) v] ∧
      t.last = s.last ∧ t.fb = s.fb ∧ t.store = s.store ∧ t.ev = s.ev ∧ t.cp = s.cp ∧ t.mi = s.mi ∧ t.dly = s.dly ∧
      t.pinScript = s.pinScript ∧
      (decode (s.recBuf ++ [v]) = .needMore →
        t.ph = .load ∧ t.li = s.li ∧ t.recBuf = s.recBuf ++ [v] ∧ t.desc = s.desc ∧ t.sl = s.sl ∧ t.sig = s.sig) ∧
      (∀ d, decode (s.recBuf ++ [v]) = .done d →
        t.desc = s.desc.set s.li.val d s.li.isLt ∧ t.recBuf = [] ∧
        (s.li.val < 5 → t.ph = .load ∧ t.li.val = s.li.val + 1 ∧ t.sl = s.sl ∧ t.sig = s.sig) ∧
        (s.li.val = 5 → t.ph = .scan ∧ t.li = s.li ∧ t.sl = 0 ∧ t.sig = #v[false, false, false]))

/-- R95, R202: a tag in 3..255 raises `ConfigDecodeError(BadTag, LI, tag, 0)` at the read of byte 0. The entry (the
halt in `FAULT` is the spec's decision D13, the cause code D15) sets the error flag and record and the phase; `DESC`
and all else stay. -/
def Obligations.BadTagTakesConfigDecodeError : Prop :=
  ∀ (s : State) (tag : Byte), NoReset s → s.ph = .load → s.recBuf = [] → 3 ≤ tag.toNat →
    s.store.read (Config.recBytes * s.li.val) = tag →
    step s = .next { s with
      ph := .fault
      cfgErr := true
      err := ⟨1, BitVec.ofNat 3 s.li.val, tag, 0⟩
      trace := s.trace ++ [.rb (Config.recBytes * s.li.val) tag] }

/-- R96, R203: tag 2 with a length byte in 11..255 raises `ConfigDecodeError(BadMacroLength, LI, 2, n)` after the two
reads, before any code byte is read; `DESC` and all else stay (the entry as for a bad tag, D13 and D15). -/
def Obligations.BadMacroLengthTakesConfigDecodeError : Prop :=
  ∀ (s : State) (n : Byte), NoReset s → s.ph = .load → s.recBuf = [] → 11 ≤ n.toNat →
    s.store.read (Config.recBytes * s.li.val) = 2 →
    s.store.read (Config.recBytes * s.li.val + 1) = n →
    runFor 2 s = .next { s with
      ph := .fault
      cfgErr := true
      err := ⟨2, BitVec.ofNat 3 s.li.val, 2, n⟩
      trace := s.trace ++ [.rb (Config.recBytes * s.li.val) 2, .rb (Config.recBytes * s.li.val + 1) n] }

/-- R92, R93, R94: a legal record is decoded by reading its meaningful bytes, each once in ascending address order
(three for Keyboard, two for Consumer, 2 + n for Macro), and nothing else changes but the place in the load (records in
ascending order, the spec's decision D14). -/
def Obligations.LegalRecordIsDecodedByItsReads : Prop :=
  ∀ (s : State) (d : Instr), NoReset s → s.ph = .load → s.recBuf = [] → d.wellFormed = true →
    HoldsRecord s.store s.li d →
    runFor (match d with | .kbd _ _ => 3 | .cons _ => 2 | .macroSeq codes => 2 + codes.length) s = .next { s with
      desc := s.desc.set s.li.val d s.li.isLt
      li := if h : s.li.val < 5 then ⟨s.li.val + 1, Nat.succ_lt_succ h⟩ else s.li
      ph := if s.li.val < 5 then .load else .scan
      sl := if s.li.val < 5 then s.sl else 0
      sig := if s.li.val < 5 then s.sig else #v[false, false, false]
      trace := s.trace ++ recordTrace s.li d }

/-- R97 and R90 (an inference and a decision, D14, of the spec): a store of six legal records loads the whole table in
12 to 72 reads, records in ascending order, and touches nothing but the table and the place in the loop. -/
def Obligations.LegalStoreLoadsTheWholeTable : Prop :=
  ∀ (s : State) (tab : Vector Instr Config.nSlots), NoReset s → s.ph = .load → s.li = 0 → s.recBuf = [] →
    (∀ i : Fin Config.nSlots, tab[i].wellFormed = true ∧ HoldsRecord s.store i tab[i]) →
    12 ≤ (loadTrace tab).length ∧ (loadTrace tab).length ≤ 72 ∧
    runFor (loadTrace tab).length s = .next { s with
      desc := tab
      li := 5
      ph := .scan
      sl := 0
      sig := #v[false, false, false]
      trace := s.trace ++ loadTrace tab }

/-! The Action Dispatcher (43_action_dispatcher.md) -/

/-- `KBD` on Press, Release and Trigger (R144, R145, R147): the key-down, the key-up, or both with nothing between, with
the stored bytes whole. Nothing but the trace and the phase changes. -/
def Obligations.KeyboardEmitsByEvent : Prop :=
  ∀ (m c : Byte) (s : State), s.ph = .act →
    (s.ev = .press → exec (.kbd m c) s = .next { s with ph := .done, trace := s.trace ++ [.kd m c] }) ∧
    (s.ev = .release → exec (.kbd m c) s = .next { s with ph := .done, trace := s.trace ++ [.ku m c] }) ∧
    (s.ev = .trigger →
      exec (.kbd m c) s = .next { s with ph := .act2, trace := s.trace ++ [.kd m c] } ∧
      exec (.kbd m c) { s with ph := .act2, trace := s.trace ++ [.kd m c] } =
        .next { s with ph := .done, trace := s.trace ++ [.kd m c, .ku m c] })

/-- `CONS` on Press, Release and Trigger (R148, R149, R150). Nothing but the trace and the phase changes. -/
def Obligations.ConsumerEmitsByEvent : Prop :=
  ∀ (k : Code16) (s : State), s.ph = .act →
    (s.ev = .press → exec (.cons k) s = .next { s with ph := .done, trace := s.trace ++ [.cd k] }) ∧
    (s.ev = .release → exec (.cons k) s = .next { s with ph := .done, trace := s.trace ++ [.cu k] }) ∧
    (s.ev = .trigger →
      exec (.cons k) s = .next { s with ph := .act2, trace := s.trace ++ [.cd k] } ∧
      exec (.cons k) { s with ph := .act2, trace := s.trace ++ [.cd k] } =
        .next { s with ph := .done, trace := s.trace ++ [.cd k, .cu k] })

/-- `MACRO`: each cycle of its dispatch that is no wait, with its exact next state (the Macro rows of R182, and
`M_DOWN` and `M_UP` of R183). -/
def Obligations.MacroCyclesByPhase : Prop :=
  ∀ (codes : List Byte) (s : State),
    (s.ph = .act → s.ev ≠ .release → exec (.macroSeq codes) s = .next { s with ph := .mDown, mi := 0 }) ∧
    (s.ph = .act → s.ev = .release → exec (.macroSeq codes) s = .next { s with ph := .done }) ∧
    (∀ c, s.ph = .mDown → codes[s.mi]? = some c →
      exec (.macroSeq codes) s = .next { s with ph := .mW1, trace := s.trace ++ [.kd 0 c] }) ∧
    (s.ph = .mDown → s.mi = codes.length → exec (.macroSeq codes) s = .next { s with ph := .done }) ∧
    (∀ c, s.ph = .mUp → codes[s.mi]? = some c →
      exec (.macroSeq codes) s = .next { s with ph := .mW2, trace := s.trace ++ [.ku 0 c] })

/-- `MACRO` in `M_W1` and `M_W2`: a cycle of the wait begins it with one `DLY(5)`, goes on, or leaves the phase, and
then `M_W2` steps `MI` (R183; the count of cycles is the spec's decision D24, the event at the wait's start the
model's, log 1). -/
def Obligations.MacroWaitCycles : Prop :=
  ∀ (codes : List Byte) (s : State), (s.ph = .mW1 ∨ s.ph = .mW2) →
    let left := (if s.dly = 0 then 5 * Config.ticksPerMs else s.dly) - 1
    exec (.macroSeq codes) s = .next { s with
      dly := left
      trace := if s.dly = 0 then s.trace ++ [.dly 5] else s.trace
      mi := if left = 0 ∧ s.ph = .mW2 then s.mi + 1 else s.mi
      ph := if left ≠ 0 then s.ph else if s.ph = .mW1 then .mUp else .mDown }

/-- The frame of a dispatch, for every descriptor: a cycle that goes on changes at most the phase, `MI`, `DLY` and the
trace, `KBD` and `CONS` not even `MI` and `DLY`; every byte of the store reads as before; the trace only grows. -/
def Obligations.DispatchFrame : Prop :=
  ∀ (i : Instr) (s t : State), exec i s = .next t →
    t.li = s.li ∧ t.sl = s.sl ∧ t.ev = s.ev ∧ t.cp = s.cp ∧ t.desc = s.desc ∧ t.last = s.last ∧ t.sig = s.sig ∧
    t.fb = s.fb ∧ t.cfgErr = s.cfgErr ∧ t.err = s.err ∧ t.recBuf = s.recBuf ∧ t.pinScript = s.pinScript ∧
    t.pinDraws = s.pinDraws ∧ t.rstScript = s.rstScript ∧ (∀ a, t.store.read a = s.store.read a) ∧
    (kindOf i ≠ .macroKind → t.mi = s.mi ∧ t.dly = s.dly) ∧
    ∃ added, t.trace = s.trace ++ added ∧ added.length ≤ 1

/-- Exactly where a dispatch stops (the model's choice for register combinations no rule speaks of, log 11): in the
phases no row of R182 and R183 gives its kind and event, past the macro's codes (R22, R23), and outside a dispatch. In
every other state it has a next state, and it is never refused. -/
def Obligations.DispatchStopsOnlyOffTheTables : Prop :=
  ∀ (i : Instr) (s : State),
    (∀ f, exec i s = .fault f ↔ DispatchStops i s f) ∧
    (∀ r, exec i s ≠ .refused r) ∧
    ((∃ t, exec i s = .next t) ↔ ∀ f, ¬ DispatchStops i s f)

/-- R140 to R153, R179: from `ACT` the phases run the whole dispatch of the current descriptor: the trace grows by
exactly the program's events, in order and with the waits between them, and no other element but `MI` differs at
`DONE`. -/
def Obligations.DispatchPhasesRunTheProgram : Prop :=
  ∀ s : State, NoReset s → s.ph = .act → s.dly = 0 →
    ∃ k m, runFor k s = .next { s with
      ph := .done
      mi := m
      trace := s.trace ++ dispatchTrace s.desc[s.sl] s.ev }

/-- R151, R146: a Macro on Press is, for each of its codes in order, key-down with no modifier, 5 ms, key-up, 5 ms; on
Release nothing (R152); on Trigger the same as on Press (R153). -/
def Obligations.MacroDispatchStepByStep : Prop :=
  ∀ (s : State) (codes : List Byte), NoReset s → s.ph = .act → s.dly = 0 → s.desc[s.sl] = .macroSeq codes →
    ∃ k m, runFor k s = .next { s with
      ph := .done
      mi := m
      trace := s.trace ++
        if s.ev = .release then []
        else codes.flatMap fun c => [.kd 0 c, .dly 5, .ku 0 c, .dly 5] }

/-- R154 (an inference of the spec): emissions and milliseconds of a dispatch, by kind and event. -/
def Obligations.DispatchLengthByKindAndEvent : Prop :=
  ∀ (d : Instr) (ev : KeyEvent),
    ((dispatchTrace d ev).filter fun e => e.hidPort.isSome).length =
      (match d, ev with
        | .macroSeq codes, .press => 2 * codes.length
        | .macroSeq codes, .trigger => 2 * codes.length
        | .macroSeq _, .release => 0
        | _, .trigger => 2
        | _, _ => 1) ∧
    traceMs (dispatchTrace d ev) =
      (match d, ev with
        | .macroSeq _, .release => 0
        | .macroSeq codes, _ => 10 * codes.length
        | _, _ => 0)

/-- R190, R262 (the spec's decision D24): each fixed wait, from its first cycle: `Delay(n)` leaves one `DLY(n)` event,
in its first cycle (the model's choice, log 1), and takes exactly `n * TICKS_PER_MS` cycles in which nothing but `DLY`
changes; then the phase is left. -/
def Obligations.FixedWaitsTakeTheirTime : Prop :=
  ∀ (s : State), NoReset s → s.dly = 0 →
    (s.ph = .cool ∨ s.ph = .kSettle ∨ s.ph = .endDly ∨
      ((s.ph = .mW1 ∨ s.ph = .mW2) ∧ kindOf s.desc[s.sl] = .macroKind)) → 0 < s.ph.waitMs →
    (∀ k, 0 < k → k < s.ph.waitMs * Config.ticksPerMs →
      runFor k s = .next { s with
        dly := s.ph.waitMs * Config.ticksPerMs - k
        trace := s.trace ++ [.dly s.ph.waitMs] }) ∧
    runFor (s.ph.waitMs * Config.ticksPerMs) s = .next { s with
      ph := (match s.ph with
        | .cool => .commit
        | .kSettle => .kWait
        | .endDly => .wdr
        | .mW1 => .mUp
        | _ => .mDown)
      mi := if s.ph = .mW2 then s.mi + 1 else s.mi
      trace := s.trace ++ [.dly s.ph.waitMs] }

/-! The Key State Machine (41_key_state_machine.md, 45_main_loop.md R181, R184) -/

/-- R181: `SCAN` of a key slot samples its pin into `CP` and leads by the edge to a Press or Release dispatch, to the
signal of a held key, or to nothing. Nothing else changes. There are three signals: slot 3 is out of their bounds and
raises none. -/
def Obligations.ScanLeadsByEdge : Prop :=
  ∀ (s : State) (k : Fin Config.nKeys), rstNow s = false → s.ph = .scan → s.sl = keySlot k →
    keyPin 0 = .key1 ∧ keyPin 1 = .key2 ∧ keyPin 2 = .key3 ∧ keyPin 3 = .encSw ∧
    step s = .next { s with
      rstScript := s.rstScript.tail
      pinScript := s.pinScript.tail
      pinDraws := if s.pinScript = [] then s.pinDraws + 1 else s.pinDraws
      trace := s.trace ++ [.sp (keyPin k) (pinAnswer s)]
      cp := pinAnswer s
      ev := if pinAnswer s = s.last[k] then s.ev else if pinAnswer s then .press else .release
      sig := if pinAnswer s = true ∧ s.last[k] = true then s.sig.setIfInBounds k.val true else s.sig
      ph := if pinAnswer s = s.last[k] then .next else .act }

/-- R184: what follows a dispatch: `DONE`, `COOL` (50 ms), `COMMIT` (`LAST[SL] <- CP`, and the signal of a rising edge
of slots 0..2; slot 3 is out of the three signals' bounds) and `NEXT`. -/
def Obligations.AfterADispatch : Prop :=
  ∀ s : State, NoReset s →
    (s.ph = .done → step s = .next { s with
      ph := if s.ev = .trigger then .kSettle
        else if s.ev = .release ∧ kindOf s.desc[s.sl] = .macroKind then .cool else .commit }) ∧
    (s.ph = .cool → s.dly = 0 → ∃ j, runFor j s = .next { s with
      ph := .commit
      trace := s.trace ++ [.dly 50] }) ∧
    (∀ k : Fin Config.nKeys, s.ph = .commit → s.sl = keySlot k → step s = .next { s with
      ph := .next
      last := s.last.set k.val s.cp k.isLt
      sig := if s.cp then s.sig.setIfInBounds k.val true else s.sig }) ∧
    (∀ h : s.sl.val < 3, s.ph = .next → step s = .next { s with
      ph := .scan
      sl := ⟨s.sl.val + 1, Nat.lt_trans (Nat.succ_lt_succ h) (by decide)⟩ }) ∧
    (s.sl.val = 3 → s.ph = .next → step s = .next { s with ph := .knobA })

/-- R115 and the rules it cites: from `SCAN` of a key slot the phases run `OnSample` on the sample the environment
gives: its events, the new `LAST` bit, the signal; every other element that outlives the slot's turn is unchanged. -/
def Obligations.KeyPhasesRunOnSample : Prop :=
  ∀ (s : State) (k : Fin Config.nKeys) (p : Bool) (rest : List Bool), NoReset s → s.ph = .scan → s.sl = keySlot k →
    s.dly = 0 → s.pinScript = p :: rest →
    let r := onSample s.desc[keySlot k] s.last[k] p
    ∃ j ev m, runFor j s = .next { s with
      ph := .next
      cp := p
      ev := ev
      mi := m
      last := s.last.set k.val r.last k.isLt
      sig := if r.signal then s.sig.setIfInBounds k.val true else s.sig
      pinScript := rest
      trace := s.trace ++ .sp (keyPin k) p :: r.events }

/-- R107 to R109, R113, R114: what `OnSample` emits and signals: a press on a rising edge; on a falling edge the
release and, for a Macro only, the 50 ms cooldown; on no edge nothing, and a signal again while held. -/
def Obligations.OnSampleByEdge : Prop :=
  ∀ d : Instr,
    onSample d false true = ⟨dispatchTrace d .press, true, true⟩ ∧
    onSample d true false =
      ⟨dispatchTrace d .release ++ (if kindOf d = .macroKind then [.dly 50] else []), false, false⟩ ∧
    onSample d true true = ⟨[], true, true⟩ ∧
    onSample d false false = ⟨[], false, false⟩

/-! The Knob Dispatcher (42_knob_dispatcher.md, 45_main_loop.md R187) -/

/-- R187: the knob phases. `KNOB_A` and `K_WAIT` sample the primary pin, `KNOB_B` the secondary pin and chooses slot 4
or 5 with a Trigger, `K_SETTLE` waits `T_SETTLE`; if that is 0 it takes no cycle (R262, the spec's decision D24): the
cycle that finds the engine in it is `K_WAIT`'s (how the model has it, log 1). -/
def Obligations.KnobPhases : Prop :=
  ∀ s : State, NoReset s →
    let sampled (p : Pin) : State := { s with
      pinScript := s.pinScript.tail
      pinDraws := if s.pinScript = [] then s.pinDraws + 1 else s.pinDraws
      trace := s.trace ++ [.sp p (pinAnswer s)] }
    (s.ph = .knobA → step s = .next { sampled .encA with ph := if pinAnswer s then .knobB else .feed }) ∧
    (s.ph = .knobB → step s = .next { sampled .encB with
      sl := if pinAnswer s = Config.encCwLevel then 4 else 5
      ev := .trigger
      ph := .act }) ∧
    (s.ph = .kSettle → s.dly = 0 → Config.tSettle = 0 → step s = step { s with ph := .kWait }) ∧
    (s.ph = .kSettle → s.dly = 0 → 0 < Config.tSettle →
      ∃ j, runFor j s = .next { s with
        ph := .kWait
        trace := s.trace ++ [.dly Config.tSettle] }) ∧
    (s.ph = .kWait → step s = .next { sampled .encA with ph := if pinAnswer s then .kWait else .feed })

/-- R133: from `KNOB_A` the phases run `Knob()` against what the environment does, with any number of polls; the trigger
happens once, for slot 4 or 5 by the level of the secondary pin, and no cooldown follows it. -/
def Obligations.KnobPhasesRunTheProgram : Prop :=
  ∀ (s : State) (x : Option Detent) (rest : List Bool), NoReset s → s.ph = .knobA → s.dly = 0 →
    s.pinScript = knobAnswers x ++ rest →
    ∃ j m, runFor j s = .next { s with
      ph := .feed
      sl := match x with
        | none => s.sl
        | some d => if d.b = Config.encCwLevel then 4 else 5
      ev := match x with
        | none => s.ev
        | some _ => .trigger
      mi := m
      pinScript := rest
      trace := s.trace ++ knobTrace s.desc x }

/-- R134: while the primary pin stays active the engine stays in `K_WAIT`: it polls, and nothing else happens. -/
def Obligations.DetentThatNeverClearsHangs : Prop :=
  ∀ (s : State) (n : Nat) (rest : List Bool), NoReset s → s.ph = .kWait →
    s.pinScript = List.replicate n true ++ rest →
    runFor n s = .next { s with
      pinScript := rest
      trace := s.trace ++ List.replicate n (.sp .encA true) }

/-! The Feedback Coordinator and the end of an iteration (44_feedback_coordinator.md, 45_main_loop.md R185, R186) -/

/-- R169: `FEED` sets each signalled channel to the maximum, lets each other one above the floor fall by one, and
pushes the three new levels once. Nothing else changes. -/
def Obligations.FeedSetsDecaysAndPushes : Prop :=
  ∀ s : State, rstNow s = false → s.ph = .feed →
    ∃ fb : Vector Byte Config.nFb,
      (∀ c : Fin Config.nFb,
        (s.sig[c] = true → fb[c] = Config.fbMax) ∧
        (s.sig[c] = false → Config.fbFloor.toNat < s.fb[c].toNat → fb[c].toNat = s.fb[c].toNat - 1) ∧
        (s.sig[c] = false → s.fb[c].toNat ≤ Config.fbFloor.toNat → fb[c] = s.fb[c])) ∧
      step s = .next { s with
        ph := .endDly
        fb := fb
        rstScript := s.rstScript.tail
        trace := s.trace ++ [.led fb[0] fb[1] fb[2]] }

/-- R170 (R167's floor is an inference of the spec): over any iterations in which the channel's key reads released,
whatever the other inputs do and whether or not the first of them is the falling edge, the level falls by exactly one
per iteration and never below the floor; over iterations in which it reads pressed it is the maximum. -/
def Obligations.DecayIsOnePerIterationDownToTheFloor : Prop :=
  ∀ (desc : Vector Instr Config.nSlots) (last : Vector Bool Config.nKeys) (fb : Vector Byte Config.nFb)
    (c : Fin Config.nFb) (xs : List IterationInput),
    ((∀ x ∈ xs, x.keys[channelKey c] = false) → Config.fbFloor ≤ fb[c] →
      (iterationsFb desc last fb xs)[c].toNat = Nat.max (fb[c].toNat - xs.length) Config.fbFloor.toNat) ∧
    ((∀ x ∈ xs, x.keys[channelKey c] = true) → xs ≠ [] → (iterationsFb desc last fb xs)[c] = Config.fbMax)

/-- R186: `WDR` refreshes the watchdog, clears `SIG` and `SL`, and the next iteration begins. Before it `END_DLY` waits
`T_LOOP` (R185; this order is also the spec's decision D20); if that is 0 it takes no cycle (R262, decision D24): the
cycle that finds the engine in it is `WDR`'s (how the model has it, log 1). -/
def Obligations.IterationEndsWithDelayAndRefresh : Prop :=
  ∀ s : State, NoReset s →
    (s.ph = .endDly → s.dly = 0 → Config.tLoop = 0 → step s = step { s with ph := .wdr }) ∧
    (s.ph = .endDly → s.dly = 0 → 0 < Config.tLoop →
      ∃ j, runFor j s = .next { s with
        ph := .wdr
        trace := s.trace ++ [.dly Config.tLoop] }) ∧
    (s.ph = .wdr → step s = .next { s with
      ph := .scan
      sl := 0
      sig := #v[false, false, false]
      trace := s.trace ++ [.wdr] })

/-! Iterations and runs (45_main_loop.md R178) -/

/-- One iteration: from its first `SCAN` the phases run the loop body of R178 against any environment and come back to
the first `SCAN`, with the program's trace, `LAST` and `FB`; the table, the store and the error state are as before.
-/
def Obligations.IterationPhasesRunTheProgram : Prop :=
  ∀ (s : State) (x : IterationInput) (rest : List Bool), NoReset s → s.ph = .scan → s.sl = 0 →
    s.sig = #v[false, false, false] → s.dly = 0 → s.pinScript = x.answers ++ rest →
    ∃ k cp ev m, 0 < k ∧ runFor k s = .next { s with
      cp := cp
      ev := ev
      mi := m
      last := iterationLast s.desc s.last x.keys
      fb := iterationFb s.desc s.last x.keys s.fb
      pinScript := rest
      trace := s.trace ++ iterationTrace s.desc s.last s.fb x }

/-- R178: the whole engine from reset, with Key1 released at the gate and six legal records in the store: the gate
sample, the load, and then iteration after iteration, as many as the environment answers. -/
def Obligations.EngineRunsItsProgram : Prop :=
  ∀ (m : Memory) (tab : Vector Instr Config.nSlots) (xs : List IterationInput),
    (∀ i : Fin Config.nSlots, tab[i].wellFormed = true ∧ HoldsRecord m i tab[i]) →
    ∃ k t, runFor k { State.reset with store := m, pinScript := false :: xs.flatMap IterationInput.answers } = .next t ∧
      t.ph = .scan ∧ t.sl = 0 ∧ t.desc = tab ∧ t.pinScript = [] ∧ t.cfgErr = false ∧
      t.last = iterationsLast tab #v[false, false, false, false] xs ∧
      t.fb = iterationsFb tab #v[false, false, false, false] #v[Config.fbFloor, Config.fbFloor, Config.fbFloor] xs ∧
      t.trace = [.sp .key1 false] ++ loadTrace tab ++
        iterationsTrace tab #v[false, false, false, false] #v[Config.fbFloor, Config.fbFloor, Config.fbFloor] xs

/-- R113, R114, R126: an iteration with no edge and no detent emits nothing: five samples, the push, the delay, the
refresh. -/
def Obligations.IterationWithoutEdgesEmitsNothing : Prop :=
  ∀ (desc : Vector Instr Config.nSlots) (last : Vector Bool Config.nKeys) (fb : Vector Byte Config.nFb),
    iterationTrace desc last fb ⟨last, none⟩ =
      [.sp .key1 last[0], .sp .key2 last[1], .sp .key3 last[2], .sp .encSw last[3], .sp .encA false,
        ledEvent (iterationFb desc last last fb)] ++ delayTrace Config.tLoop ++ [.wdr] ∧
    iterationLast desc last last = last

/-- R193 (an inference of the spec; one refresh is R191, decision D20): an iteration has one refresh, and with a legal
table its `DLY` events sum to at most `T_LOOP + T_SETTLE + 500` ms. This bounds no time: the detent wait has no `DLY`
event and no bound (R134). -/
def Obligations.IterationDelaySumIsBounded : Prop :=
  ∀ (desc : Vector Instr Config.nSlots) (last : Vector Bool Config.nKeys) (fb : Vector Byte Config.nFb)
    (x : IterationInput), (∀ i : Fin Config.nSlots, desc[i].wellFormed = true) →
    (iterationTrace desc last fb x).count .wdr = 1 ∧
    traceMs (iterationTrace desc last fb x) ≤ Config.tLoop + Config.tSettle + 500

/-- R193, the bounded part of R242 (inferences of the spec): in any number of iterations of a legal table the `DLY`
events between two refreshes sum to less than any timeout above `T_LOOP + T_SETTLE + 500` ms. This bounds no time: the
detent wait adds an unbounded time without `DLY` events (R134), and `DLY` sums are lower bounds only (R262). -/
def Obligations.DelaySumBetweenRefreshesIsBounded : Prop :=
  ∀ (timeout : Nat) (desc : Vector Instr Config.nSlots) (last : Vector Bool Config.nKeys)
    (fb : Vector Byte Config.nFb) (xs : List IterationInput), (∀ i : Fin Config.nSlots, desc[i].wellFormed = true) →
    Config.tLoop + Config.tSettle + 500 < timeout →
    WithinWatchdog timeout (iterationsTrace desc last fb xs)

/-! The machine as a whole -/

/-- The reset state, where R36 gives values: `LAST` from the source, the others by the spec's decisions D11, D15, D21,
D22, D24 and D30 (the values R36 leaves open are the model's, log 3, and are not stated here). -/
def Obligations.ResetValues : Prop :=
  State.reset.ph = .gate ∧ State.reset.li = 0 ∧ State.reset.sl = 0 ∧ State.reset.dly = 0 ∧
    State.reset.last = #v[false, false, false, false] ∧ State.reset.sig = #v[false, false, false] ∧
    State.reset.fb = #v[Config.fbFloor, Config.fbFloor, Config.fbFloor] ∧ State.reset.cfgErr = false

/-- R230, R41 (the spec's decisions D2, D11, D21): `rst` high at a clock edge gives every element its reset value,
whatever was in progress, with no port transaction; the store and the environment stay, and the trace starts anew (log
9). -/
def Obligations.ResetAbandonsEverything : Prop :=
  ∀ s : State, rstNow s = true →
    ∃ t, step s = .next t ∧ t.ph = .gate ∧ t.li = 0 ∧ t.sl = 0 ∧ t.dly = 0 ∧ t.last = #v[false, false, false, false] ∧
      t.sig = #v[false, false, false] ∧ t.fb = #v[Config.fbFloor, Config.fbFloor, Config.fbFloor] ∧ t.cfgErr = false ∧
      t.trace = [] ∧ t.store = s.store ∧ t.pinScript = s.pinScript ∧ t.rstScript = s.rstScript.tail

/-- The reset state is legal. Of the clauses, that every descriptor is well formed and that `MI` is in range hold by the
model's own values of `DESC` and `MI` (log 3), which R36 leaves unspecified. -/
def Obligations.ResetStateIsLegal : Prop := State.reset.Legal

/-- Every step of a legal state that goes on leads to a legal state. -/
def Obligations.EveryStepKeepsLegality : Prop :=
  ∀ s t : State, s.Legal → step s = .next t → t.Legal

/-- A legal state always goes on, whatever its store holds (R53: no access traps; R194: only `BOOT` and `FAULT` have no
further transaction, and even they have a next state). -/
def Obligations.LegalStatesAlwaysGoOn : Prop :=
  ∀ s : State, s.Legal → ∃ t, step s = .next t

/-- Exactly where a step stops, in any state (the model's stops, log 6 and 11): at an address above 71, with a slot 4
or 5 in a key phase, or in a dispatch phase with a descriptor, event or macro index that no row speaks of; it is never
refused. -/
def Obligations.StepStopsExactlyWhereNoRuleSpeaks : Prop :=
  ∀ s : State,
    (∀ r, step s ≠ .refused r) ∧
    ∀ f, step s = .fault f ↔
      rstNow s = false ∧
      ((s.ph = .load ∧ f = .storeAddressAbsent (loadAddress s) ∧ Config.cfgBytes ≤ loadAddress s) ∨
        ((s.ph = .scan ∨ s.ph = .commit ∨ s.ph = .next) ∧ f = .slotHasNoKey ∧ 4 ≤ s.sl.val) ∨
        (s.ph.dispatching = true ∧ s.ph ≠ .done ∧ DispatchStops s.desc[s.sl] s f))

/-- R40 (the spec's decision D3): at most one port transaction per clock cycle. -/
def Obligations.AtMostOneTransactionPerCycle : Prop :=
  ∀ s t : State, rstNow s = false → step s = .next t →
    t.trace = s.trace ∨ ∃ e, t.trace = s.trace ++ [e]

/-- R211, R12 (the latter an inference of the spec): a pin is looked at only by an `SP` event. A cycle with none steps
the same whatever the environment would answer, next or later; a cycle with one takes one answer, carries it in the
event, and steps the same in every environment with that next answer. -/
def Obligations.PinsAreReadOnlyBySampling : Prop :=
  ∀ (s : State) (pins : List Bool) (draws : Nat), rstNow s = false →
    let u : State := { s with pinScript := pins, pinDraws := draws }
    (∀ f, step s = .fault f → step u = .fault f) ∧
    ∀ t, step s = .next t →
      (step u = .next { t with pinScript := pins, pinDraws := draws } ∧
        t.pinScript = s.pinScript ∧ t.pinDraws = s.pinDraws ∧ ∀ p b, t.trace ≠ s.trace ++ [.sp p b]) ∨
      ((∃ p, t.trace = s.trace ++ [.sp p (pinAnswer s)]) ∧ t.pinScript = s.pinScript.tail ∧
        (pinAnswer u = pinAnswer s →
          step u = .next { t with
            pinScript := pins.tail
            pinDraws := if pins = [] then draws + 1 else draws }))

/-- R52: no step writes the store. -/
def Obligations.StoreIsNeverWritten : Prop :=
  ∀ s t : State, step s = .next t → t.store = s.store

/-- R24: only `LOAD` writes the descriptor table, and only the record it decodes. -/
def Obligations.TableIsReadOnlyAfterLoad : Prop :=
  ∀ s t : State, rstNow s = false → step s = .next t →
    (s.ph ≠ .load → t.desc = s.desc) ∧ ∀ i : Fin Config.nSlots, i ≠ s.li → t.desc[i] = s.desc[i]

/-- R37, R25, R27: `LAST[k]` is written only by `COMMIT` of its own slot, `SIG[c]` is raised only by `SCAN` or
`COMMIT` of its own slot, and `FB` is touched only in `FEED`. -/
def Obligations.EachFlagHasOneOwner : Prop :=
  ∀ s t : State, rstNow s = false → step s = .next t →
    (∀ k : Fin Config.nKeys, t.last[k] ≠ s.last[k] → s.ph = .commit ∧ s.sl.val = k.val) ∧
    (∀ c : Fin Config.nFb, s.sig[c] = false → t.sig[c] = true →
      (s.ph = .scan ∨ s.ph = .commit) ∧ s.sl.val = c.val) ∧
    (s.ph ≠ .feed → t.fb = s.fb)

/-- The error flag rises only in `LOAD` (R200), with a record that R201 allows and the phase `FAULT`, and nothing but
reset clears it (the spec's decisions D13 and D15). -/
def Obligations.ErrorFlagIsSticky : Prop :=
  ∀ s t : State, rstNow s = false → step s = .next t →
    (s.cfgErr = true → t.cfgErr = true) ∧
    (s.cfgErr = false → t.cfgErr = true → s.ph = .load ∧ t.ph = .fault ∧ t.err.legal ∧ t.desc = s.desc)

/-- R36, 93_implementation_defined.md U8: no rule reads `DESC`, `EV`, `CP`, `MI` or `ERR` before writing it: whatever
they hold at reset (the model's own values, log 3, or any others), every run has the same trace, the same phase,
flags, levels and error port, and stops for the same reason. Resets in the middle are included. -/
def Obligations.UnspecifiedResetValuesAreNeverSeen : Prop :=
  ∀ (m : Memory) (pins rst : List Bool) (desc : Vector Instr Config.nSlots) (ev : KeyEvent) (cp : Bool) (mi : Nat)
    (err : ErrRecord) (k : Nat),
    match runFor k { State.reset with store := m, pinScript := pins, rstScript := rst },
      runFor k { State.reset with
        store := m, pinScript := pins, rstScript := rst, desc := desc, ev := ev, cp := cp, mi := mi, err := err } with
    | .next t, .next u => t.trace = u.trace ∧ t.ph = u.ph ∧ t.last = u.last ∧ t.sig = u.sig ∧ t.fb = u.fb ∧
        errPort t = errPort u
    | .fault f, .fault g => f = g
    | _, _ => False

/-- R42, R44, R45 (the spec's decisions D3, D12, D27): what the ports carry in the cycle of a transaction: operation
code, modifier and zero-extended code on the HID port, the three levels on the LED port with channel 0 lowest. -/
def Obligations.PortsCarryTheArguments : Prop :=
  (∀ m c : Byte, (PortEvent.kd m c).hidPort = some ⟨0, m, BitVec.ofNat 16 c.toNat⟩ ∧
    (PortEvent.ku m c).hidPort = some ⟨1, m, BitVec.ofNat 16 c.toNat⟩) ∧
  (∀ k : Code16, (PortEvent.cd k).hidPort = some ⟨2, 0, k⟩ ∧ (PortEvent.cu k).hidPort = some ⟨3, 0, k⟩) ∧
  (∀ l0 l1 l2 : Byte, ∃ v, (PortEvent.led l0 l1 l2).ledPort = some v ∧
    v.extractLsb 7 0 = l0 ∧ v.extractLsb 15 8 = l1 ∧ v.extractLsb 23 16 = l2) ∧
  (∀ (a : Nat) (v : Byte), a < Config.cfgBytes → (PortEvent.rb a v).cfgPort = some (BitVec.ofNat 7 a))
end

