-- ==== Sys2Proof/Laws/Decode.lean ====
section
/-! SUPPORT. What the decoder can answer, each answer once. -/

namespace Sys2Proof

/-- Everything the decoder can answer on bytes that begin with a tag (30_encoding.md R83). -/
theorem decode_cons (t : Byte) (rest : List Byte) :
    (t = 0 ∧ decode (t :: rest) = decodeKeyboard rest) ∨
    (t = 1 ∧ decode (t :: rest) = decodeConsumer rest) ∨
    (t = 2 ∧ decode (t :: rest) = decodeMacro rest) ∨
    (3 ≤ t.toNat ∧ decode (t :: rest) = .badTag t) := by
  by_cases h0 : t = 0
  · subst h0; exact .inl ⟨rfl, rfl⟩
  by_cases h1 : t = 1
  · subst h1; exact .inr (.inl ⟨rfl, rfl⟩)
  by_cases h2 : t = 2
  · subst h2; exact .inr (.inr (.inl ⟨rfl, rfl⟩))
  refine .inr (.inr (.inr ⟨by bv_omega, ?_⟩))
  rw [decode, if_neg h0, if_neg h1, if_neg h2]

/-- Everything the Macro decoder can answer after the length byte (30_encoding.md R79, R81). -/
theorem decodeMacro_cons (n : Byte) (codes : List Byte) :
    (10 < n.toNat ∧ decodeMacro (n :: codes) = .badMacroLength n) ∨
    (n.toNat ≤ 10 ∧ codes.length < n.toNat ∧ decodeMacro (n :: codes) = .needMore) ∨
    (n.toNat ≤ 10 ∧ n.toNat ≤ codes.length ∧ decodeMacro (n :: codes) = .done (.macroSeq (codes.take n.toNat))) := by
  by_cases h : 10 < n.toNat
  · exact .inl ⟨h, by simp [decodeMacro, h]⟩
  by_cases h1 : codes.length < n.toNat
  · exact .inr (.inl ⟨by omega, h1, by simp [decodeMacro, h, h1]⟩)
  · exact .inr (.inr ⟨by omega, by omega, by simp [decodeMacro, h, h1]⟩)

/-- A record is never finished without its first bytes, and always by its twelfth. -/
theorem length_of_decode_needMore {bytes : List Byte} (h : decode bytes = .needMore) :
    bytes.length < Config.recBytes := by
  match bytes with
  | [] => simp
  | [_] => simp
  | t :: n :: rest =>
    obtain ⟨_, e⟩ | ⟨_, e⟩ | ⟨_, e⟩ | ⟨_, e⟩ := decode_cons t (n :: rest)
    · match rest with
      | [] => simp [Config.recBytes]
      | _ :: _ => rw [e] at h; cases h
    · rw [e] at h; cases h
    · obtain ⟨_, e'⟩ | ⟨_, _, e'⟩ | ⟨_, _, e'⟩ := decodeMacro_cons n rest
      · rw [e, e'] at h; cases h
      · simp only [Config.recBytes, List.length_cons]
        omega
      · rw [e, e'] at h; cases h
    · rw [e] at h; cases h

theorem three_le_of_decode_badTag {bytes : List Byte} {t : Byte} (h : decode bytes = .badTag t) : 3 ≤ t.toNat := by
  match bytes with
  | [] => cases h
  | t' :: rest =>
    obtain ⟨_, e⟩ | ⟨_, e⟩ | ⟨_, e⟩ | ⟨ht, e⟩ := decode_cons t' rest
    · rw [e] at h; unfold decodeKeyboard at h; split at h <;> cases h
    · rw [e] at h; unfold decodeConsumer at h; split at h <;> cases h
    · rw [e] at h
      match rest with
      | [] => cases h
      | n :: codes =>
        obtain ⟨_, e'⟩ | ⟨_, _, e'⟩ | ⟨_, _, e'⟩ := decodeMacro_cons n codes <;> rw [e'] at h <;> cases h
    · rw [e] at h
      cases h
      exact ht

theorem eleven_le_of_decode_badMacroLength {bytes : List Byte} {n : Byte} (h : decode bytes = .badMacroLength n) :
    11 ≤ n.toNat := by
  match bytes with
  | [] => cases h
  | t' :: rest =>
    obtain ⟨_, e⟩ | ⟨_, e⟩ | ⟨_, e⟩ | ⟨ht, e⟩ := decode_cons t' rest
    · rw [e] at h; unfold decodeKeyboard at h; split at h <;> cases h
    · rw [e] at h; unfold decodeConsumer at h; split at h <;> cases h
    · rw [e] at h
      match rest with
      | [] => cases h
      | m :: codes =>
        obtain ⟨hn, e'⟩ | ⟨_, _, e'⟩ | ⟨_, _, e'⟩ := decodeMacro_cons m codes <;> rw [e'] at h <;> cases h
        exact hn
    · rw [e] at h
      cases h

/-- What the decoder builds is well formed. -/
theorem wellFormed_of_decode_done {bytes : List Byte} {i : Instr} (h : decode bytes = .done i) :
    i.wellFormed = true := by
  match bytes with
  | [] => cases h
  | t' :: rest =>
    obtain ⟨_, e⟩ | ⟨_, e⟩ | ⟨_, e⟩ | ⟨ht, e⟩ := decode_cons t' rest
    · rw [e] at h; unfold decodeKeyboard at h; split at h <;> cases h; rfl
    · rw [e] at h
      match rest with
      | [] => cases h
      | k :: _ =>
        cases h
        simp only [Instr.wellFormed, decide_eq_true_eq]
        bv_omega
    · rw [e] at h
      match rest with
      | [] => cases h
      | m :: codes =>
        obtain ⟨hn, e'⟩ | ⟨_, _, e'⟩ | ⟨hn, _, e'⟩ := decodeMacro_cons m codes <;> rw [e'] at h <;> cases h
        simp only [Instr.wellFormed, decide_eq_true_eq, List.length_take, Config.macroMax]
        omega
    · rw [e] at h
      cases h

/-- The meaningful bytes of a well-formed instruction fit a record. -/
theorem length_encodeMeaningful_le {i : Instr} (h : i.wellFormed = true) :
    (encodeMeaningful i).length ≤ Config.recBytes := by
  cases i with
  | kbd m c => simp [encodeMeaningful, Config.recBytes]
  | cons k => simp [encodeMeaningful, Config.recBytes]
  | macroSeq codes =>
    simp only [Instr.wellFormed, decide_eq_true_eq, Config.macroMax] at h
    simp only [encodeMeaningful, List.length_cons, Config.recBytes]
    omega

/-- The encoder fills a record whole. -/
theorem length_encode {i : Instr} (h : i.wellFormed = true) : (encode i).length = Config.recBytes := by
  have := length_encodeMeaningful_le h
  simp only [encode, List.length_append, List.length_replicate]
  omega

end Sys2Proof
end

