-- ==== Sys2Proof/Laws/State.lean ====
section
/-! SUPPORT. One lemma per field per update of State, each true by definition, so that no proof unfolds a record
update. -/

namespace Sys2Proof.Machine

variable (s : State)

/-! One port transaction -/

@[simp] theorem log_ph (e : PortEvent) : (s.log e).ph = s.ph := rfl
@[simp] theorem log_li (e : PortEvent) : (s.log e).li = s.li := rfl
@[simp] theorem log_sl (e : PortEvent) : (s.log e).sl = s.sl := rfl
@[simp] theorem log_ev (e : PortEvent) : (s.log e).ev = s.ev := rfl
@[simp] theorem log_cp (e : PortEvent) : (s.log e).cp = s.cp := rfl
@[simp] theorem log_mi (e : PortEvent) : (s.log e).mi = s.mi := rfl
@[simp] theorem log_dly (e : PortEvent) : (s.log e).dly = s.dly := rfl
@[simp] theorem log_desc (e : PortEvent) : (s.log e).desc = s.desc := rfl
@[simp] theorem log_last (e : PortEvent) : (s.log e).last = s.last := rfl
@[simp] theorem log_sig (e : PortEvent) : (s.log e).sig = s.sig := rfl
@[simp] theorem log_fb (e : PortEvent) : (s.log e).fb = s.fb := rfl
@[simp] theorem log_cfgErr (e : PortEvent) : (s.log e).cfgErr = s.cfgErr := rfl
@[simp] theorem log_err (e : PortEvent) : (s.log e).err = s.err := rfl
@[simp] theorem log_recBuf (e : PortEvent) : (s.log e).recBuf = s.recBuf := rfl
@[simp] theorem log_store (e : PortEvent) : (s.log e).store = s.store := rfl
@[simp] theorem log_pinScript (e : PortEvent) : (s.log e).pinScript = s.pinScript := rfl
@[simp] theorem log_pinDraws (e : PortEvent) : (s.log e).pinDraws = s.pinDraws := rfl
@[simp] theorem log_rstScript (e : PortEvent) : (s.log e).rstScript = s.rstScript := rfl
@[simp] theorem log_trace (e : PortEvent) : (s.log e).trace = s.trace ++ [e] := rfl

/-! `PH <- p` -/

@[simp] theorem goto_ph (p : Phase) : (s.goto p).ph = p := rfl
@[simp] theorem goto_li (p : Phase) : (s.goto p).li = s.li := rfl
@[simp] theorem goto_sl (p : Phase) : (s.goto p).sl = s.sl := rfl
@[simp] theorem goto_ev (p : Phase) : (s.goto p).ev = s.ev := rfl
@[simp] theorem goto_cp (p : Phase) : (s.goto p).cp = s.cp := rfl
@[simp] theorem goto_mi (p : Phase) : (s.goto p).mi = s.mi := rfl
@[simp] theorem goto_dly (p : Phase) : (s.goto p).dly = s.dly := rfl
@[simp] theorem goto_desc (p : Phase) : (s.goto p).desc = s.desc := rfl
@[simp] theorem goto_last (p : Phase) : (s.goto p).last = s.last := rfl
@[simp] theorem goto_sig (p : Phase) : (s.goto p).sig = s.sig := rfl
@[simp] theorem goto_fb (p : Phase) : (s.goto p).fb = s.fb := rfl
@[simp] theorem goto_cfgErr (p : Phase) : (s.goto p).cfgErr = s.cfgErr := rfl
@[simp] theorem goto_err (p : Phase) : (s.goto p).err = s.err := rfl
@[simp] theorem goto_recBuf (p : Phase) : (s.goto p).recBuf = s.recBuf := rfl
@[simp] theorem goto_store (p : Phase) : (s.goto p).store = s.store := rfl
@[simp] theorem goto_pinScript (p : Phase) : (s.goto p).pinScript = s.pinScript := rfl
@[simp] theorem goto_pinDraws (p : Phase) : (s.goto p).pinDraws = s.pinDraws := rfl
@[simp] theorem goto_rstScript (p : Phase) : (s.goto p).rstScript = s.rstScript := rfl
@[simp] theorem goto_trace (p : Phase) : (s.goto p).trace = s.trace := rfl

/-! `SamplePin` -/

@[simp] theorem takeSample_ph (p : Pin) : (takeSample p s).ph = s.ph := rfl
@[simp] theorem takeSample_li (p : Pin) : (takeSample p s).li = s.li := rfl
@[simp] theorem takeSample_sl (p : Pin) : (takeSample p s).sl = s.sl := rfl
@[simp] theorem takeSample_ev (p : Pin) : (takeSample p s).ev = s.ev := rfl
@[simp] theorem takeSample_cp (p : Pin) : (takeSample p s).cp = s.cp := rfl
@[simp] theorem takeSample_mi (p : Pin) : (takeSample p s).mi = s.mi := rfl
@[simp] theorem takeSample_dly (p : Pin) : (takeSample p s).dly = s.dly := rfl
@[simp] theorem takeSample_desc (p : Pin) : (takeSample p s).desc = s.desc := rfl
@[simp] theorem takeSample_last (p : Pin) : (takeSample p s).last = s.last := rfl
@[simp] theorem takeSample_sig (p : Pin) : (takeSample p s).sig = s.sig := rfl
@[simp] theorem takeSample_fb (p : Pin) : (takeSample p s).fb = s.fb := rfl
@[simp] theorem takeSample_cfgErr (p : Pin) : (takeSample p s).cfgErr = s.cfgErr := rfl
@[simp] theorem takeSample_err (p : Pin) : (takeSample p s).err = s.err := rfl
@[simp] theorem takeSample_recBuf (p : Pin) : (takeSample p s).recBuf = s.recBuf := rfl
@[simp] theorem takeSample_store (p : Pin) : (takeSample p s).store = s.store := rfl
@[simp] theorem takeSample_pinScript (p : Pin) : (takeSample p s).pinScript = s.pinScript.tail := rfl
@[simp] theorem takeSample_pinDraws (p : Pin) : (takeSample p s).pinDraws = if s.pinScript.isEmpty then s.pinDraws + 1 else s.pinDraws := rfl
@[simp] theorem takeSample_rstScript (p : Pin) : (takeSample p s).rstScript = s.rstScript := rfl
@[simp] theorem takeSample_trace (p : Pin) : (takeSample p s).trace = s.trace ++ [.sp p (pinAnswer s)] := rfl

/-! The clock edge -/

@[simp] theorem passEdge_ph : (passEdge s).ph = s.ph := rfl
@[simp] theorem passEdge_li : (passEdge s).li = s.li := rfl
@[simp] theorem passEdge_sl : (passEdge s).sl = s.sl := rfl
@[simp] theorem passEdge_ev : (passEdge s).ev = s.ev := rfl
@[simp] theorem passEdge_cp : (passEdge s).cp = s.cp := rfl
@[simp] theorem passEdge_mi : (passEdge s).mi = s.mi := rfl
@[simp] theorem passEdge_dly : (passEdge s).dly = s.dly := rfl
@[simp] theorem passEdge_desc : (passEdge s).desc = s.desc := rfl
@[simp] theorem passEdge_last : (passEdge s).last = s.last := rfl
@[simp] theorem passEdge_sig : (passEdge s).sig = s.sig := rfl
@[simp] theorem passEdge_fb : (passEdge s).fb = s.fb := rfl
@[simp] theorem passEdge_cfgErr : (passEdge s).cfgErr = s.cfgErr := rfl
@[simp] theorem passEdge_err : (passEdge s).err = s.err := rfl
@[simp] theorem passEdge_recBuf : (passEdge s).recBuf = s.recBuf := rfl
@[simp] theorem passEdge_store : (passEdge s).store = s.store := rfl
@[simp] theorem passEdge_pinScript : (passEdge s).pinScript = s.pinScript := rfl
@[simp] theorem passEdge_pinDraws : (passEdge s).pinDraws = s.pinDraws := rfl
@[simp] theorem passEdge_rstScript : (passEdge s).rstScript = s.rstScript.tail := rfl
@[simp] theorem passEdge_trace : (passEdge s).trace = s.trace := rfl

/-! Taking `ConfigDecodeError` -/

@[simp] theorem raise_ph (c : DecodeCause) (i : Fin Config.nSlots) (t n : Byte) : (raiseConfigDecodeError c i t n s).ph = .fault := rfl
@[simp] theorem raise_li (c : DecodeCause) (i : Fin Config.nSlots) (t n : Byte) : (raiseConfigDecodeError c i t n s).li = s.li := rfl
@[simp] theorem raise_sl (c : DecodeCause) (i : Fin Config.nSlots) (t n : Byte) : (raiseConfigDecodeError c i t n s).sl = s.sl := rfl
@[simp] theorem raise_ev (c : DecodeCause) (i : Fin Config.nSlots) (t n : Byte) : (raiseConfigDecodeError c i t n s).ev = s.ev := rfl
@[simp] theorem raise_cp (c : DecodeCause) (i : Fin Config.nSlots) (t n : Byte) : (raiseConfigDecodeError c i t n s).cp = s.cp := rfl
@[simp] theorem raise_mi (c : DecodeCause) (i : Fin Config.nSlots) (t n : Byte) : (raiseConfigDecodeError c i t n s).mi = s.mi := rfl
@[simp] theorem raise_dly (c : DecodeCause) (i : Fin Config.nSlots) (t n : Byte) : (raiseConfigDecodeError c i t n s).dly = s.dly := rfl
@[simp] theorem raise_desc (c : DecodeCause) (i : Fin Config.nSlots) (t n : Byte) : (raiseConfigDecodeError c i t n s).desc = s.desc := rfl
@[simp] theorem raise_last (c : DecodeCause) (i : Fin Config.nSlots) (t n : Byte) : (raiseConfigDecodeError c i t n s).last = s.last := rfl
@[simp] theorem raise_sig (c : DecodeCause) (i : Fin Config.nSlots) (t n : Byte) : (raiseConfigDecodeError c i t n s).sig = s.sig := rfl
@[simp] theorem raise_fb (c : DecodeCause) (i : Fin Config.nSlots) (t n : Byte) : (raiseConfigDecodeError c i t n s).fb = s.fb := rfl
@[simp] theorem raise_cfgErr (c : DecodeCause) (i : Fin Config.nSlots) (t n : Byte) : (raiseConfigDecodeError c i t n s).cfgErr = true := rfl
@[simp] theorem raise_err (c : DecodeCause) (i : Fin Config.nSlots) (t n : Byte) : (raiseConfigDecodeError c i t n s).err = ⟨c.code, BitVec.ofNat 3 i.val, t, n⟩ := rfl
@[simp] theorem raise_recBuf (c : DecodeCause) (i : Fin Config.nSlots) (t n : Byte) : (raiseConfigDecodeError c i t n s).recBuf = [] := rfl
@[simp] theorem raise_store (c : DecodeCause) (i : Fin Config.nSlots) (t n : Byte) : (raiseConfigDecodeError c i t n s).store = s.store := rfl
@[simp] theorem raise_pinScript (c : DecodeCause) (i : Fin Config.nSlots) (t n : Byte) : (raiseConfigDecodeError c i t n s).pinScript = s.pinScript := rfl
@[simp] theorem raise_pinDraws (c : DecodeCause) (i : Fin Config.nSlots) (t n : Byte) : (raiseConfigDecodeError c i t n s).pinDraws = s.pinDraws := rfl
@[simp] theorem raise_rstScript (c : DecodeCause) (i : Fin Config.nSlots) (t n : Byte) : (raiseConfigDecodeError c i t n s).rstScript = s.rstScript := rfl
@[simp] theorem raise_trace (c : DecodeCause) (i : Fin Config.nSlots) (t n : Byte) : (raiseConfigDecodeError c i t n s).trace = s.trace := rfl

/-! Reset -/

@[simp] theorem takeReset_ph : (takeReset s).ph = State.reset.ph := rfl
@[simp] theorem takeReset_li : (takeReset s).li = State.reset.li := rfl
@[simp] theorem takeReset_sl : (takeReset s).sl = State.reset.sl := rfl
@[simp] theorem takeReset_ev : (takeReset s).ev = State.reset.ev := rfl
@[simp] theorem takeReset_cp : (takeReset s).cp = State.reset.cp := rfl
@[simp] theorem takeReset_mi : (takeReset s).mi = State.reset.mi := rfl
@[simp] theorem takeReset_dly : (takeReset s).dly = State.reset.dly := rfl
@[simp] theorem takeReset_desc : (takeReset s).desc = State.reset.desc := rfl
@[simp] theorem takeReset_last : (takeReset s).last = State.reset.last := rfl
@[simp] theorem takeReset_sig : (takeReset s).sig = State.reset.sig := rfl
@[simp] theorem takeReset_fb : (takeReset s).fb = State.reset.fb := rfl
@[simp] theorem takeReset_cfgErr : (takeReset s).cfgErr = State.reset.cfgErr := rfl
@[simp] theorem takeReset_err : (takeReset s).err = State.reset.err := rfl
@[simp] theorem takeReset_recBuf : (takeReset s).recBuf = State.reset.recBuf := rfl
@[simp] theorem takeReset_store : (takeReset s).store = s.store := rfl
@[simp] theorem takeReset_pinScript : (takeReset s).pinScript = s.pinScript := rfl
@[simp] theorem takeReset_pinDraws : (takeReset s).pinDraws = s.pinDraws := rfl
@[simp] theorem takeReset_rstScript : (takeReset s).rstScript = s.rstScript := rfl
@[simp] theorem takeReset_trace : (takeReset s).trace = [] := rfl

/-! A clock edge with `rst` low for good changes nothing but the level list -/

theorem passEdge_eq (h : NoReset s) : passEdge s = s := by
  cases s; simp_all [NoReset, passEdge]

@[simp] theorem pinAnswer_passEdge : pinAnswer (passEdge s) = pinAnswer s := rfl

theorem pinAnswer_cons (b : Bool) (rest : List Bool) (h : s.pinScript = b :: rest) : pinAnswer s = b := by
  simp [pinAnswer, h]

end Sys2Proof.Machine
end

