-- ==== Sys2Proof/Laws/Step.lean ====
section
/-! SUPPORT. What a step is in each phase, and what each shared operation can do, said once. -/

namespace Sys2Proof.Machine

variable {s t : State}

/-! The step by phase -/

theorem step_reset (hr : rstNow s = true) : step s = .next (takeReset (passEdge s)) := by
  simp [step, clockEdge, hr]

theorem step_low (hr : rstNow s = false) : step s = phaseCycle (passEdge s) := by
  simp [step, clockEdge, hr]

theorem rstNow_of_noReset (h : NoReset s) : rstNow s = false := by
  have : s.rstScript = [] := h
  simp [rstNow, this]

theorem step_noReset (h : NoReset s) : step s = phaseCycle s := by
  rw [step_low (rstNow_of_noReset h), passEdge_eq s h]

theorem phaseCycle_gate (h : s.ph = .gate) : phaseCycle s = .next (phaseGate s) := by simp [phaseCycle, h]
theorem phaseCycle_bootReq (h : s.ph = .bootReq) : phaseCycle s = .next (phaseBootReq s) := by simp [phaseCycle, h]
theorem phaseCycle_boot (h : s.ph = .boot) : phaseCycle s = .next s := by simp [phaseCycle, h]
theorem phaseCycle_load (h : s.ph = .load) : phaseCycle s = phaseLoad s := by simp [phaseCycle, h]
theorem phaseCycle_fault (h : s.ph = .fault) : phaseCycle s = .next s := by simp [phaseCycle, h]
theorem phaseCycle_scan (h : s.ph = .scan) : phaseCycle s = phaseScan s := by simp [phaseCycle, h]
theorem phaseCycle_done (h : s.ph = .done) : phaseCycle s = .next (phaseDone s) := by simp [phaseCycle, h]
theorem phaseCycle_cool (h : s.ph = .cool) : phaseCycle s = .next (phaseCool s) := by simp [phaseCycle, h]
theorem phaseCycle_commit (h : s.ph = .commit) : phaseCycle s = phaseCommit s := by simp [phaseCycle, h]
theorem phaseCycle_next (h : s.ph = .next) : phaseCycle s = phaseNext s := by simp [phaseCycle, h]
theorem phaseCycle_knobA (h : s.ph = .knobA) : phaseCycle s = .next (phaseKnobA s) := by simp [phaseCycle, h]
theorem phaseCycle_knobB (h : s.ph = .knobB) : phaseCycle s = .next (phaseKnobB s) := by simp [phaseCycle, h]
theorem phaseCycle_kSettle (h : s.ph = .kSettle) : phaseCycle s = .next (phaseKSettle s) := by simp [phaseCycle, h]
theorem phaseCycle_kWait (h : s.ph = .kWait) : phaseCycle s = .next (phaseKWait s) := by simp [phaseCycle, h]
theorem phaseCycle_feed (h : s.ph = .feed) : phaseCycle s = .next (phaseFeed s) := by simp [phaseCycle, h]
theorem phaseCycle_endDly (h : s.ph = .endDly) : phaseCycle s = .next (phaseEndDly s) := by simp [phaseCycle, h]
theorem phaseCycle_wdr (h : s.ph = .wdr) : phaseCycle s = .next (phaseWdr s) := by simp [phaseCycle, h]

theorem phaseCycle_dispatch (h : s.ph.dispatching = true) (hd : s.ph ≠ .done) :
    phaseCycle s = exec s.descriptor s := by
  unfold phaseCycle
  cases hp : s.ph <;> simp_all [Phase.dispatching]

/-! The delay timer: a wait begins, goes on or ends -/

/-- `0 <= FB_FLOOR <= FB_MAX` (00_scope.md R8). -/
theorem fbFloor_le_fbMax : Config.fbFloor ≤ Config.fbMax := by
  unfold Config.fbFloor Config.fbMax
  split <;> bv_omega

theorem ticksPerMs_pos : 0 < Config.ticksPerMs := Nat.succ_pos _

/-- Everything one cycle of a wait can do. -/
theorem delayCycle_eq (ms : Nat) (leave : State → State) (s : State) :
    delayCycle ms leave s =
      if ticksLeft ms s = 0 then leave { s with dly := 0, trace := s.trace ++ delayEvents ms s }
      else { s with dly := ticksLeft ms s, trace := s.trace ++ delayEvents ms s } := by
  unfold delayCycle
  split
  · rename_i h
    rw [h]
  · rfl

/-- A phase that waits no milliseconds is the next phase's cycle. -/
theorem waitPhase_zero (leave next : State → State) (s : State) : waitPhase 0 leave next s = next (leave s) := rfl

theorem waitPhase_pos {ms : Nat} (leave next : State → State) (s : State) (h : 0 < ms) :
    waitPhase ms leave next s = delayCycle ms leave s := if_neg (by omega)

/-- Everything the cycle of a waiting phase can do. -/
theorem waitPhase_cases (ms : Nat) (leave next : State → State) (s : State) :
    (ms = 0 ∧ waitPhase ms leave next s = next (leave s)) ∨
    (0 < ms ∧ waitPhase ms leave next s = delayCycle ms leave s) := by
  rcases Nat.eq_zero_or_pos ms with h | h
  · exact .inl ⟨h, by rw [h]; rfl⟩
  · exact .inr ⟨h, waitPhase_pos leave next s h⟩

/-- Everything leaving a state for a phase does not change is unchanged by a cycle of a wait. -/
theorem delayCycle_goto_frame (ms : Nat) (p : Phase) (s : State) :
    ∃ d tr q, delayCycle ms (State.goto p) s = { s with dly := d, trace := s.trace ++ tr, ph := q } ∧
      (q = p ∨ q = s.ph) ∧ (tr = [] ∨ tr = [.dly ms]) := by
  have htr : delayEvents ms s = [] ∨ delayEvents ms s = [.dly ms] := by
    unfold delayEvents; split <;> simp
  rw [delayCycle_eq]
  split
  · exact ⟨0, delayEvents ms s, p, rfl, .inl rfl, htr⟩
  · exact ⟨ticksLeft ms s, delayEvents ms s, s.ph, rfl, .inr rfl, htr⟩

/-! The store -/

/-- Everything `ReadByte` can answer. -/
theorem storeRead_cases (a : Nat) (s : State) :
    (a < Config.cfgBytes ∧ storeRead a s = .ok (s.store.read a)) ∨
    (Config.cfgBytes ≤ a ∧ storeRead a s = .error (.storeAddressAbsent a)) := by
  unfold storeRead
  split
  · exact .inl ⟨by assumption, rfl⟩
  · exact .inr ⟨by omega, rfl⟩

theorem storeRead_of_lt {a : Nat} (ha : a < Config.cfgBytes) : storeRead a s = .ok (s.store.read a) := if_pos ha

/-! Slots -/

theorem keyOf_of_lt {i : Fin Config.nSlots} (h : i.val < Config.nKeys) : keyOf i = some ⟨i.val, h⟩ := by
  simp [keyOf, h]

theorem keyOf_some {i : Fin Config.nSlots} {k : Fin Config.nKeys} (h : keyOf i = some k) : k.val = i.val := by
  unfold keyOf at h
  split at h
  · cases h; rfl
  · cases h

theorem keyOf_none {i : Fin Config.nSlots} (h : keyOf i = none) : Config.nKeys ≤ i.val := by
  unfold keyOf at h
  split at h
  · cases h
  · rename_i hn
    exact Nat.le_of_not_lt hn

/-! The dispatch of one descriptor: what a cycle that goes on can do -/

/-- Everything a cycle of `KBD` or `CONS` can do (45_main_loop.md R182). -/
theorem pulseDispatch_next {down up : PortEvent} (h : pulseDispatch down up s = .next t) :
    (s.ph = .act ∧ s.ev = .press ∧ t = (s.log down).goto .done) ∨
    (s.ph = .act ∧ s.ev = .release ∧ t = (s.log up).goto .done) ∨
    (s.ph = .act ∧ s.ev = .trigger ∧ t = (s.log down).goto .act2) ∨
    (s.ph = .act2 ∧ s.ev = .trigger ∧ t = (s.log up).goto .done) := by
  unfold pulseDispatch at h
  cases hp : s.ph <;> cases he : s.ev <;> simp_all

/-- Everything a cycle of `MACRO` can do (45_main_loop.md R182, R183). -/
theorem execMacroSeq_next {codes : List Byte} (h : execMacroSeq codes s = .next t) :
    (s.ph = .act ∧ t = macroAct s) ∨
    (s.ph = .mDown ∧ ∃ c, codes[s.mi]? = some c ∧ t = (s.log (.kd 0 c)).goto .mW1) ∨
    (s.ph = .mDown ∧ s.mi = codes.length ∧ t = s.goto .done) ∨
    (s.ph = .mW1 ∧ t = delayCycle Config.tStep (State.goto .mUp) s) ∨
    (s.ph = .mUp ∧ ∃ c, codes[s.mi]? = some c ∧ t = (s.log (.ku 0 c)).goto .mW2) ∨
    (s.ph = .mW2 ∧ t = delayCycle Config.tStep macroAdvance s) := by
  unfold execMacroSeq macroDown macroUp macroCode macroLength at h
  cases hp : s.ph <;> simp only [hp] at h <;> (try cases h)
  · simp
  · cases hc : codes[s.mi]? with
    | some c => simp_all
    | none =>
      rw [hc] at h
      simp only at h
      split at h
      · simp_all
      · cases h
  · simp
  · cases hc : codes[s.mi]? with
    | some c => simp_all
    | none => rw [hc] at h; cases h
  · simp

end Sys2Proof.Machine
end

