-- ==== Sys2Proof/Laws/Cycle.lean ====
section
/-! SUPPORT. Each phase as one update of State, and everything one cycle of the engine can do, said once. -/

namespace Sys2Proof.Machine

variable {s t : State}

/-! Each phase as one update -/

theorem phaseGate_eq : phaseGate s = { s with
    ph := if pinAnswer s then .bootReq else .load
    li := 0
    pinScript := s.pinScript.tail
    pinDraws := if s.pinScript.isEmpty then s.pinDraws + 1 else s.pinDraws
    trace := s.trace ++ [.sp .key1 (pinAnswer s)] } := rfl

theorem phaseBootReq_eq : phaseBootReq s = { s with ph := .boot, trace := s.trace ++ [.bootldr] } := rfl

theorem phaseDone_eq : phaseDone s = { s with ph := phaseAfterDispatch s.ev (kindOf s.desc[s.sl]) } := rfl

theorem phaseKnobA_eq : phaseKnobA s = { s with
    ph := if pinAnswer s then .knobB else .feed
    pinScript := s.pinScript.tail
    pinDraws := if s.pinScript.isEmpty then s.pinDraws + 1 else s.pinDraws
    trace := s.trace ++ [.sp .encA (pinAnswer s)] } := rfl

theorem phaseKnobB_eq : phaseKnobB s = { s with
    ph := .act
    sl := slotOfDirection Config.encCwLevel (pinAnswer s)
    ev := .trigger
    pinScript := s.pinScript.tail
    pinDraws := if s.pinScript.isEmpty then s.pinDraws + 1 else s.pinDraws
    trace := s.trace ++ [.sp .encB (pinAnswer s)] } := rfl

theorem phaseKWait_eq : phaseKWait s = { s with
    ph := if pinAnswer s then .kWait else .feed
    pinScript := s.pinScript.tail
    pinDraws := if s.pinScript.isEmpty then s.pinDraws + 1 else s.pinDraws
    trace := s.trace ++ [.sp .encA (pinAnswer s)] } := rfl

theorem phaseFeed_eq : phaseFeed s = { s with
    ph := .endDly
    fb := feedbackLevels s.sig s.fb
    trace := s.trace ++ [ledEvent (feedbackLevels s.sig s.fb)] } := rfl

theorem phaseWdr_eq : phaseWdr s = { s with
    ph := .scan
    sl := 0
    sig := noSignals
    trace := s.trace ++ [.wdr] } := rfl

/-! What belongs to a slot -/

theorem keyOf_keySlot (k : Fin Config.nKeys) : keyOf (keySlot k) = some k := keyOf_of_lt k.isLt

theorem channelOf_some {i : Fin Config.nSlots} {c : Fin Config.nFb} (h : channelOf i = some c) : c.val = i.val := by
  unfold channelOf at h
  split at h
  · cases h; rfl
  · cases h

/-- The signals with a slot's raised, by number: slots 3 to 5 are out of the three signals' bounds. -/
theorem signalled_eq (i : Fin Config.nSlots) (sig : Vector Bool Config.nFb) :
    signalled i sig = sig.setIfInBounds i.val true := by
  unfold signalled channelOf
  apply Vector.ext
  intro j hj
  by_cases h : i.val < 3
  · simp [h, Vector.getElem_set, Vector.getElem_setIfInBounds]
  · have : i.val ≠ j := by simp only [Config.nFb] at hj; omega
    simp [h, this]

/-! The load -/

/-- Everything the end of a record can do (45_main_loop.md R180). -/
theorem afterRecord_cases (s : State) :
    (∃ i : Fin Config.nSlots, i.val = s.li.val + 1 ∧ afterRecord s = { s with li := i, ph := .load }) ∨
    (s.li.val = 5 ∧ afterRecord s = { s with sl := 0, sig := noSignals, ph := .scan }) := by
  unfold afterRecord slotAfter
  split
  · rename_i i hi
    split at hi
    · cases hi
      exact .inl ⟨_, rfl, rfl⟩
    · cases hi
  · rename_i hi
    split at hi
    · cases hi
    · rename_i hn
      have : s.li.val < 6 := s.li.isLt
      exact .inr ⟨by simp only [Config.nSlots] at hn; omega, rfl⟩

/-- Everything the bytes read of a record can lead to (40_config_decoder.md R91 to R96). -/
theorem loadDecoded_cases (got : List Byte) (s : State) :
    (decode got = .needMore ∧ loadDecoded got s = { s with recBuf := got }) ∨
    (∃ d i, decode got = .done d ∧ i.val = s.li.val + 1 ∧
      loadDecoded got s = { s with desc := s.desc.set s.li.val d s.li.isLt, recBuf := [], li := i, ph := .load }) ∨
    (∃ d, decode got = .done d ∧ s.li.val = 5 ∧
      loadDecoded got s =
        { s with desc := s.desc.set s.li.val d s.li.isLt, recBuf := [], sl := 0, sig := noSignals, ph := .scan }) ∨
    (∃ b, decode got = .badTag b ∧ loadDecoded got s = raiseConfigDecodeError .badTag s.li b 0 s) ∨
    (∃ n, decode got = .badMacroLength n ∧
      loadDecoded got s = raiseConfigDecodeError .badMacroLength s.li Config.tagMacro n s) := by
  unfold loadDecoded
  cases hd : decode got with
  | needMore => exact .inl ⟨rfl, rfl⟩
  | done d =>
    obtain ⟨i, hi, h⟩ | ⟨hi, h⟩ := afterRecord_cases { s with desc := s.desc.set s.li.val d s.li.isLt, recBuf := [] }
    · exact .inr (.inl ⟨d, i, rfl, hi, h⟩)
    · exact .inr (.inr (.inl ⟨d, rfl, hi, h⟩))
  | badTag b => exact .inr (.inr (.inr (.inl ⟨b, rfl, rfl⟩)))
  | badMacroLength n => exact .inr (.inr (.inr (.inr ⟨n, rfl, rfl⟩)))

/-! One cycle -/

/-- Everything one cycle with `rst` low can do. -/
theorem phaseCycle_cases (h : phaseCycle s = .next t) :
    (s.ph = .gate ∧ t = phaseGate s) ∨
    (s.ph = .bootReq ∧ t = phaseBootReq s) ∨
    ((s.ph = .boot ∨ s.ph = .fault) ∧ t = s) ∨
    (s.ph = .load ∧ loadAddress s < Config.cfgBytes ∧
      t = loadDecoded (s.recBuf ++ [s.store.read (loadAddress s)])
        (s.log (.rb (loadAddress s) (s.store.read (loadAddress s))))) ∨
    (s.ph = .scan ∧ ∃ k, keyOf s.sl = some k ∧
      t = scanEdge (edgeOf s.last[k] (pinAnswer s)) { takeSample (keyPin k) s with cp := pinAnswer s }) ∨
    (s.ph.dispatching = true ∧ s.ph ≠ .done ∧ exec s.descriptor s = .next t) ∨
    (s.ph = .done ∧ t = phaseDone s) ∨
    (s.ph = .cool ∧ t = phaseCool s) ∨
    (s.ph = .commit ∧ ∃ k, keyOf s.sl = some k ∧
      t = { s with
        last := s.last.set k.val s.cp k.isLt
        sig := if s.cp then signalled s.sl s.sig else s.sig
        ph := .next }) ∨
    (s.ph = .next ∧ ∃ i : Fin Config.nSlots, i.val < 4 ∧ i.val = s.sl.val + 1 ∧ t = { s with sl := i, ph := .scan }) ∨
    (s.ph = .next ∧ s.sl.val = 3 ∧ t = { s with ph := .knobA }) ∨
    (s.ph = .knobA ∧ t = phaseKnobA s) ∨
    (s.ph = .knobB ∧ t = phaseKnobB s) ∨
    (s.ph = .kSettle ∧ t = phaseKSettle s) ∨
    (s.ph = .kWait ∧ t = phaseKWait s) ∨
    (s.ph = .feed ∧ t = phaseFeed s) ∨
    (s.ph = .endDly ∧ t = phaseEndDly s) ∨
    (s.ph = .wdr ∧ t = phaseWdr s) := by
  cases hp : s.ph <;> simp only [phaseCycle, hp, Host.Outcome.next.injEq] at h <;> (try subst h) <;>
    simp only [Phase.dispatching, true_and, false_and, or_false, false_or, or_true, reduceCtorEq,
      not_false_eq_true, not_true_eq_false, ne_eq, Bool.false_eq_true]
  · unfold phaseLoad at h
    obtain ⟨ha, e⟩ | ⟨_, e⟩ := storeRead_cases (loadAddress s) s <;> rw [e] at h <;> cases h
    exact ⟨ha, rfl⟩
  · unfold phaseScan at h
    split at h
    · rename_i k hk
      cases h
      exact ⟨k, hk, rfl⟩
    · cases h
  all_goals try exact h
  · unfold phaseCommit at h
    split at h
    · rename_i k hk
      cases h
      exact ⟨k, hk, rfl⟩
    · cases h
  · unfold phaseNext at h
    split at h
    · rename_i k
      cases h
      exact .inl ⟨⟨s.sl.val + 1, _⟩, k, rfl, rfl⟩
    · split at h
      · rename_i k
        cases h
        simp only [Config.nKeys] at k
        exact .inr ⟨by omega, rfl⟩
      · cases h

/-- Everything one step can do: a reset, or a cycle. -/
theorem step_cases (h : step s = .next t) :
    (rstNow s = true ∧ t = takeReset (passEdge s)) ∨ (rstNow s = false ∧ phaseCycle (passEdge s) = .next t) := by
  cases hr : rstNow s
  · rw [step_low hr] at h
    exact .inr ⟨rfl, h⟩
  · rw [step_reset hr] at h
    cases h
    exact .inl ⟨rfl, rfl⟩

end Sys2Proof.Machine
end

