-- ==== Sys2Proof/Laws/Memory.lean ====
section
/-! SUPPORT. The store: reading after writing, and that every memory operation keeps the canonical form. -/

namespace Sys2Proof.Machine

theorem Memory.read_insert_same (m : Memory) (a : Nat) (v : Byte) : (m.insert a v).read a = v := by
  induction m with
  | nil => simp [Memory.insert, Memory.read]
  | cons c rest ih =>
    obtain ⟨b, w⟩ := c
    simp only [Memory.insert]
    split
    · simp [Memory.read]
    · split
      · simp [Memory.read]
      · rename_i _ hab
        simp [Memory.read, hab, ih]

theorem Memory.read_insert_other (m : Memory) (a b : Nat) (v : Byte) (h : b ≠ a) :
    (m.insert a v).read b = m.read b := by
  induction m with
  | nil => simp [Memory.insert, Memory.read, h]
  | cons c rest ih =>
    obtain ⟨d, w⟩ := c
    simp only [Memory.insert]
    split
    · simp [Memory.read, h]
    · split
      · rename_i _ had
        subst had
        simp [Memory.read, h]
      · simp only [Memory.read, ih]

theorem Memory.mem_insert (m : Memory) (a : Nat) (v : Byte) (c : Host.Cell) (h : c ∈ m.insert a v) :
    c = (a, v) ∨ c ∈ m := by
  induction m with
  | nil => simpa [Memory.insert] using h
  | cons d rest ih =>
    obtain ⟨b, w⟩ := d
    simp only [Memory.insert] at h
    split at h
    · simpa using h
    · split at h
      · rcases List.mem_cons.mp h with h | h
        · exact .inl h
        · exact .inr (List.mem_cons_of_mem _ h)
      · rcases List.mem_cons.mp h with h | h
        · exact .inr (h ▸ List.mem_cons_self)
        · rcases ih h with h | h
          · exact .inl h
          · exact .inr (List.mem_cons_of_mem _ h)

theorem Memory.insert_pairwise (m : Memory) (a : Nat) (v : Byte) (h : m.Pairwise (fun x y => x.1 < y.1)) :
    (m.insert a v).Pairwise (fun x y => x.1 < y.1) := by
  induction m with
  | nil => simp [Memory.insert]
  | cons d rest ih =>
    obtain ⟨b, w⟩ := d
    obtain ⟨hb, hrest⟩ := List.pairwise_cons.mp h
    simp only [Memory.insert]
    split
    · rename_i hab
      refine List.pairwise_cons.mpr ⟨fun c hc => ?_, h⟩
      rcases List.mem_cons.mp hc with rfl | hc
      · exact hab
      · exact Nat.lt_trans hab (hb c hc)
    · rename_i hab
      split
      · rename_i hab'
        exact List.pairwise_cons.mpr ⟨fun c hc => hab' ▸ hb c hc, hrest⟩
      · rename_i hne
        refine List.pairwise_cons.mpr ⟨fun c hc => ?_, ih hrest⟩
        rcases Memory.mem_insert rest a v c hc with rfl | hc
        · exact Nat.lt_of_le_of_ne (Nat.le_of_not_lt hab) (Ne.symm hne)
        · exact hb c hc

theorem Memory.read_erase_same (m : Memory) (a : Nat) : (m.erase a).read a = Memory.unlisted a := by
  unfold Memory.erase
  induction m with
  | nil => rfl
  | cons c rest ih =>
    by_cases h : c.1 = a
    · simpa [h] using ih
    · simpa [h, Memory.read, Ne.symm h] using ih

theorem Memory.read_erase_other (m : Memory) (a b : Nat) (h : b ≠ a) : (m.erase a).read b = m.read b := by
  unfold Memory.erase
  induction m with
  | nil => rfl
  | cons c rest ih =>
    by_cases hc : c.1 = a
    · simpa [hc, Memory.read, h] using ih
    · simp only [ne_eq, hc, not_false_eq_true, decide_true, List.filter_cons_of_pos, Memory.read]
      split
      · rfl
      · exact ih

/-- Everything a write can do. -/
theorem Memory.write_cases (m : Memory) (a : Nat) (v : Byte) :
    (a < Config.cfgBytes ∧ v = Memory.unlisted a ∧ m.write a v = m.erase a) ∨
    (a < Config.cfgBytes ∧ v ≠ Memory.unlisted a ∧ m.write a v = m.insert a v) ∨
    (Config.cfgBytes ≤ a ∧ m.write a v = m) := by
  unfold Memory.write
  split
  · rename_i ha
    split
    · exact .inl ⟨ha, by assumption, rfl⟩
    · exact .inr (.inl ⟨ha, by assumption, rfl⟩)
  · exact .inr (.inr ⟨by omega, rfl⟩)

theorem Memory.write_wf (m : Memory) (a : Nat) (v : Byte) (h : m.wf) : (m.write a v).wf := by
  obtain ⟨_, _, e⟩ | ⟨ha, hv, e⟩ | ⟨_, e⟩ := Memory.write_cases m a v <;> rw [e]
  · exact ⟨h.1.filter _, fun c hc => h.2 c (List.mem_filter.mp hc).1⟩
  · refine ⟨Memory.insert_pairwise m a v h.1, fun c hc => ?_⟩
    rcases Memory.mem_insert m a v c hc with rfl | hc
    · exact ⟨ha, hv⟩
    · exact h.2 c hc
  · exact h

theorem Memory.writeBytes_wf (m : Memory) (a : Nat) (vs : List Byte) (h : m.wf) : (m.writeBytes a vs).wf := by
  induction vs generalizing m a with
  | nil => exact h
  | cons v rest ih => exact ih _ _ (Memory.write_wf m a v h)

theorem Memory.read_write_same (m : Memory) (a : Nat) (v : Byte) (h : a < Config.cfgBytes) :
    (m.write a v).read a = v := by
  obtain ⟨_, hv, e⟩ | ⟨_, _, e⟩ | ⟨ha, _⟩ := Memory.write_cases m a v
  · rw [e, hv, Memory.read_erase_same]
  · rw [e, Memory.read_insert_same]
  · exact absurd h (Nat.not_lt_of_le ha)

theorem Memory.read_write_other (m : Memory) (a b : Nat) (v : Byte) (h : b ≠ a) :
    (m.write a v).read b = m.read b := by
  obtain ⟨_, _, e⟩ | ⟨_, _, e⟩ | ⟨_, e⟩ := Memory.write_cases m a v <;> rw [e]
  · exact Memory.read_erase_other m a b h
  · exact Memory.read_insert_other m a b v h

theorem Memory.read_writeBytes_below (m : Memory) (a b : Nat) (vs : List Byte) (h : b < a) :
    (m.writeBytes a vs).read b = m.read b := by
  induction vs generalizing m a with
  | nil => rfl
  | cons v rest ih =>
    simp only [Memory.writeBytes]
    rw [ih _ _ (Nat.lt_succ_of_lt h), Memory.read_write_other _ _ _ _ (Nat.ne_of_lt h)]

/-- Written bytes read back, where there is a store to hold them. -/
theorem Memory.read_writeBytes (m : Memory) (a k : Nat) (vs : List Byte) (v : Byte) (hv : vs[k]? = some v)
    (ha : a + k < Config.cfgBytes) : (m.writeBytes a vs).read (a + k) = v := by
  induction vs generalizing m a k with
  | nil => simp at hv
  | cons w rest ih =>
    simp only [Memory.writeBytes]
    cases k with
    | zero =>
      simp only [List.getElem?_cons_zero, Option.some.injEq] at hv
      rw [Memory.read_writeBytes_below _ _ _ _ (by omega), ← hv]
      exact Memory.read_write_same m a w (by omega)
    | succ j =>
      simp only [List.getElem?_cons_succ] at hv
      have := ih (m.write a w) (a + 1) j hv (by omega)
      rwa [show a + 1 + j = a + (j + 1) by omega] at this

/-- Placing a record keeps the store's canonical form. -/
theorem withFetchWord_store_wf (s : State) (nbits w : Nat) (h : s.store.wf) : (s.withFetchWord nbits w).store.wf := by
  unfold State.withFetchWord placeRecord
  split
  · exact Memory.writeBytes_wf _ _ _ h
  · exact Memory.writeBytes_wf _ _ _ h

/-- A store that gives each meaningful byte at its place holds the record. -/
theorem holdsRecord_of_all {m : Memory} {i : Fin Config.nSlots} {d : Instr}
    (h : (encodeMeaningful d).zipIdx.all (fun c => m.read (recordBase i + c.2) == c.1) = true) :
    HoldsRecord m i d := by
  intro k v hk
  rw [List.all_eq_true] at h
  have := h (v, k) (by rw [List.mem_zipIdx_iff_getElem?]; exact hk)
  simpa using this

theorem reset_store_wf : State.reset.store.wf := by
  simp [State.reset, Memory.wf]

end Sys2Proof.Machine
end

