-- ==== Sys2Proof/Laws/PerInstr.lean ====
section
/-! SUPPORT. Statements made per instruction: the encoder fills exactly one record with each. -/

namespace Sys2Proof.Laws.EncodeLength

/-- A well-formed instruction encodes to twelve bytes (30_encoding.md R70). -/
def Statement (i : Instr) : Prop := i.wellFormed = true → (encode i).length = Config.recBytes

theorem kbd (modifier primaryCode : Byte) : Statement (.kbd modifier primaryCode) := length_encode

theorem cons (consumerCode : Code16) : Statement (.cons consumerCode) := length_encode

theorem macroSeq (codes : List Byte) : Statement (.macroSeq codes) := length_encode

end Sys2Proof.Laws.EncodeLength
end

