-- ==== Sys2Proof/Laws/Run.lean ====
section
/-! SUPPORT. Runs of several steps, and a wait from its first cycle to its last. -/

namespace Sys2Proof.Machine

variable {s t : State}

@[simp] theorem runFor_zero : runFor 0 s = .next s := rfl

theorem runFor_succ {k : Nat} (h : step s = .next t) : runFor (k + 1) s = runFor k t := by
  simp only [runFor, h]

theorem runFor_succ_fault {k : Nat} {f : Fault} (h : step s = .fault f) : runFor (k + 1) s = .fault f := by
  simp only [runFor, h]

theorem runFor_succ_refused {k : Nat} {r : Refusal} (h : step s = .refused r) : runFor (k + 1) s = .refused r := by
  simp only [runFor, h]

/-- It is the host's run. -/
theorem runFor_eq_core (k : Nat) (s : State) : runFor k s = Host.Core.run Sys2Proof.core k s := by
  induction k generalizing s with
  | zero => rfl
  | succ k ih =>
    cases hs : step s with
    | next u =>
      have hc : Sys2Proof.core.step s = .next u := hs
      rw [runFor_succ hs, ih]
      simp only [Host.Core.run, hc]
      rfl
    | fault f =>
      have hc : Sys2Proof.core.step s = .fault f := hs
      rw [runFor_succ_fault hs]
      simp only [Host.Core.run, hc]
      rfl
    | refused r =>
      have hc : Sys2Proof.core.step s = .refused r := hs
      rw [runFor_succ_refused hs]
      simp only [Host.Core.run, hc]
      rfl

theorem runFor_one (h : step s = .next t) : runFor 1 s = .next t := by
  rw [runFor_succ h, runFor_zero]

/-- A run can be cut in two. -/
theorem runFor_add {j k : Nat} (h : runFor j s = .next t) : runFor (j + k) s = runFor k t := by
  induction j generalizing s with
  | zero =>
    cases h
    rw [Nat.zero_add]
  | succ j ih =>
    cases hs : step s with
    | next u =>
      rw [runFor_succ hs] at h
      rw [show j + 1 + k = (j + k) + 1 by omega, runFor_succ hs]
      exact ih h
    | fault f => rw [runFor_succ_fault hs] at h; cases h
    | refused r => rw [runFor_succ_refused hs] at h; cases h

/-- A cycle of a wait in progress that is not the last one. -/
theorem delayCycle_going (ms : Nat) (leave : State → State) (s : State) (h : 2 ≤ s.dly) :
    delayCycle ms leave s = { s with dly := s.dly - 1 } := by
  have hl : ticksLeft ms s = s.dly - 1 := by simp [ticksLeft, show s.dly ≠ 0 by omega]
  have he : delayEvents ms s = [] := by simp [delayEvents, show s.dly ≠ 0 by omega]
  rw [delayCycle_eq, hl, he, if_neg (by omega), List.append_nil]

/-- The last cycle of a wait in progress. -/
theorem delayCycle_last (ms : Nat) (leave : State → State) (s : State) (h : s.dly = 1) :
    delayCycle ms leave s = leave { s with dly := 0 } := by
  have hl : ticksLeft ms s = 0 := by simp [ticksLeft, h]
  have he : delayEvents ms s = [] := by simp [delayEvents, h]
  rw [delayCycle_eq, hl, he, if_pos rfl, List.append_nil]

/-- The first cycle of a wait of at least one millisecond. -/
theorem delayCycle_first (ms : Nat) (leave : State → State) (s : State) (h : s.dly = 0) (hms : 0 < ms) :
    delayCycle ms leave s =
      if ms * Config.ticksPerMs = 1 then leave { s with dly := 0, trace := s.trace ++ [.dly ms] }
      else { s with dly := ms * Config.ticksPerMs - 1, trace := s.trace ++ [.dly ms] } := by
  have hpos : 0 < ms * Config.ticksPerMs := Nat.mul_pos hms ticksPerMs_pos
  have hl : ticksLeft ms s = ms * Config.ticksPerMs - 1 := by simp [ticksLeft, h]
  have he : delayEvents ms s = [.dly ms] := by simp [delayEvents, h]
  rw [delayCycle_eq, hl, he]
  by_cases h1 : ms * Config.ticksPerMs = 1
  · rw [if_pos (by omega), if_pos h1]
  · rw [if_neg (by omega), if_neg h1]

section Wait

variable {ms : Nat} {leave : State → State}

/-- The rest of a wait in progress: `d` cycles. -/
theorem run_delay_rest (s : State) (tr : List PortEvent)
    (hstep : ∀ d, step { s with dly := d, trace := tr } = .next (delayCycle ms leave { s with dly := d, trace := tr }))
    (d : Nat) (hd : 0 < d) :
    runFor d { s with dly := d, trace := tr } = .next (leave { s with dly := 0, trace := tr }) := by
  induction d with
  | zero => cases hd
  | succ n ih =>
    by_cases hn : n = 0
    · subst hn
      rw [runFor_one (hstep 1), delayCycle_last _ _ _ rfl]
    · rw [runFor_succ (hstep (n + 1)), delayCycle_going _ _ _ (by simp; omega)]
      exact ih (by omega)

/-- A wait of at least one millisecond from its first cycle: it takes exactly `ms * TICKS_PER_MS` cycles
(70_reset_and_hazards.md R262) and leaves one event. -/
theorem run_delay (s : State)
    (hstep : ∀ d tr, step { s with dly := d, trace := tr } = .next (delayCycle ms leave { s with dly := d, trace := tr }))
    (h0 : s.dly = 0) (hms : 0 < ms) :
    runFor (ms * Config.ticksPerMs) s = .next (leave { s with dly := 0, trace := s.trace ++ [.dly ms] }) := by
  have hpos : 0 < ms * Config.ticksPerMs := Nat.mul_pos hms ticksPerMs_pos
  have hs : step s = .next (delayCycle ms leave s) := hstep s.dly s.trace
  rw [delayCycle_first ms leave s h0 hms] at hs
  split at hs
  · rename_i h1
    rw [h1]
    exact runFor_one hs
  · rename_i h1
    obtain ⟨n, hn⟩ : ∃ n, ms * Config.ticksPerMs = n + 1 := ⟨ms * Config.ticksPerMs - 1, by omega⟩
    rw [hn] at hs h1 ⊢
    rw [runFor_succ hs]
    exact run_delay_rest s (s.trace ++ [.dly ms]) (fun d => hstep d _) n (by omega)

end Wait

end Sys2Proof.Machine
end

