-- ==== Sys2Proof/Tests/Slice0.lean ====
section
/-! SUPPORT. Tests with expected results from 95_test_vectors.md (named D-, K-, A-, F-, S-, V-, P- as there) or worked out
from the rules, and for each statement with hypotheses a named state and operands that meet them all. -/

namespace Sys2Proof.Tests

open Sys2Proof Sys2Proof.Machine

/-- The state after reset, moved to a phase. -/
def at_ (p : Phase) : State := { State.reset with ph := p }

/-- One cycle of the dispatch of a descriptor, from a phase and an event: the next phase and the transactions. -/
def seen : Host.Outcome State Fault Refusal → Option (Phase × List PortEvent)
  | .next t => some (t.ph, t.trace)
  | _ => none

/-- A store with the given records, meaningful bytes only. -/
def storeOf (tab : List Instr) : Memory :=
  tab.zipIdx.flatMap fun c => (encodeMeaningful c.1).zipIdx.map fun b => (Config.recBytes * c.2 + b.2, b.1)

/-! Well-formedness: an ill-formed term for each check -/

theorem test_wf_kbd_any : (Instr.kbd 0xFF 0xFF).wellFormed = true := by decide
theorem test_wf_cons_max : (Instr.cons 0x00FF).wellFormed = true := by decide
theorem test_wf_cons_above_byte : (Instr.cons 0x0100).wellFormed = false := by decide
theorem test_wf_macro_ten : (Instr.macroSeq [1, 2, 3, 4, 5, 6, 7, 8, 9, 10]).wellFormed = true := by decide
theorem test_wf_macro_eleven : (Instr.macroSeq [1, 2, 3, 4, 5, 6, 7, 8, 9, 10, 11]).wellFormed = false := by decide

/-! Decoding: words written out from the layout table (30_encoding.md R71, R72), byte 0 in bits 7..0 -/

/-- D-2 `00 07 FF`. -/
theorem test_decode_kbd : decodeTableWord 96 0xFF0700 = some (.kbd 7 0xFF) := by decide
/-- D-4 `00 FF 04 AA BB`: bytes 3 and 4 ignored. -/
theorem test_decode_kbd_unused : decodeTableWord 96 0xBBAA04FF00 = some (.kbd 0xFF 4) := by decide
/-- D-6 `01 FF 7F`: byte 2 is no high byte. -/
theorem test_decode_cons : decodeTableWord 96 0x7FFF01 = some (.cons 0x00FF) := by decide
/-- V12 `01 E9 01`. -/
theorem test_decode_cons_high_byte : decodeTableWord 96 0x01E901 = some (.cons 0x00E9) := by decide
/-- D-9 `02 0A 01 .. 0A`. -/
theorem test_decode_macro_ten :
    decodeTableWord 96 0x0A0908070605040302010A02 = some (.macroSeq [1, 2, 3, 4, 5, 6, 7, 8, 9, 10]) := by decide
/-- D-7 `02 00 99`. -/
theorem test_decode_macro_empty : decodeTableWord 96 0x990002 = some (.macroSeq []) := by decide
/-- D-10 `02 0B`, after two bytes. -/
theorem test_decode_macro_eleven : decode [2, 0x0B] = .badMacroLength 11 := by decide
/-- D-12 `03` and D-14 `80`, after one byte: the tag is a whole byte. -/
theorem test_decode_bad_tag : decode [3] = .badTag 3 ∧ decode [0x80] = .badTag 128 := by decide
/-- V1: what is written back. -/
theorem test_encode_meaningful :
    encodeMeaningful (.kbd 5 0x2C) = [0, 5, 0x2C] ∧ encodeMeaningful (.cons 0x00E9) = [1, 0xE9] ∧
      encodeMeaningful (.macroSeq [0x1E, 0x1F]) = [2, 2, 0x1E, 0x1F] := by decide
/-- P1 slot 0, `00 01 41` and nine zeros. -/
theorem test_encode_record : encode (.kbd 1 65) = [0, 1, 65, 0, 0, 0, 0, 0, 0, 0, 0, 0] := by decide

/-! Dispatch: one cycle -/

/-- A-1, and the modifier bits of A-5. -/
theorem test_kbd_press : seen (exec (.kbd 0x88 4) (at_ .act)) = some (.done, [.kd 0x88 4]) := rfl
/-- A-3, second cycle: the key-up follows at once. -/
theorem test_kbd_trigger_up :
    seen (exec (.kbd 0 4) { at_ .act2 with ev := .trigger }) = some (.done, [.ku 0 4]) := rfl
/-- A-7. -/
theorem test_cons_release : seen (exec (.cons 0xE9) { at_ .act with ev := .release }) = some (.done, [.cu 0x00E9]) := rfl
/-- A-9, first cycle. -/
theorem test_cons_trigger : seen (exec (.cons 0) { at_ .act with ev := .trigger }) = some (.act2, [.cd 0]) := rfl
/-- A-13: a macro does nothing on Release. -/
theorem test_macro_release : seen (exec (.macroSeq [4]) { at_ .act with ev := .release }) = some (.done, []) := rfl
/-- A-14, the second step's key-down: no modifier, then the wait. -/
theorem test_macro_second_step : seen (exec (.macroSeq [4, 5]) { at_ .mDown with mi := 1 }) = some (.mW1, [.kd 0 5]) := rfl

/-! The components -/

/-- K-1, K-3. -/
theorem test_onSample_kbd :
    onSample (.kbd 1 65) false true = ⟨[.kd 1 65], true, true⟩ ∧
      onSample (.kbd 1 65) true false = ⟨[.ku 1 65], false, false⟩ := by decide
/-- K-7, K-9. -/
theorem test_onSample_macro :
    (onSample (.macroSeq [4, 5]) false true).events =
        [.kd 0 4, .dly 5, .ku 0 4, .dly 5, .kd 0 5, .dly 5, .ku 0 5, .dly 5] ∧
      onSample (.macroSeq [4, 5]) true false = ⟨[.dly 50], false, false⟩ := by decide
/-- F-2, F-4, F-5 and the floor, under `FB_MAX = 10`, `FB_FLOOR = 7`. -/
theorem test_feedback_levels :
    feedbackLevel 10 7 true 7 = 10 ∧ feedbackLevel 10 7 false 10 = 9 ∧ feedbackLevel 10 7 false 8 = 7 ∧
      feedbackLevel 10 7 false 7 = 7 := by decide
/-- 255 to 0: the step from 1 to 0 does not wrap (95_test_vectors.md 2.5). -/
theorem test_feedback_no_wrap :
    feedbackLevel 255 0 false 1 = 0 ∧ feedbackLevel 255 0 false 0 = 0 := by decide
/-- N-2, N-9: the direction by the level of the secondary pin. -/
theorem test_direction :
    slotOfDirection true true = 4 ∧ slotOfDirection true false = 5 ∧ slotOfDirection false true = 5 := by decide
/-- P2: the load takes 16 reads. -/
theorem test_load_reads :
    (loadTrace #v[.kbd 0 4, .macroSeq [4, 5, 6], .cons 0xE9, .macroSeq [], .cons 0xE9, .cons 0xEA]).length = 16 := by
  decide
/-- R44: a scan code on the HID port is zero-extended, a consumer code has no modifier. -/
theorem test_hid_port :
    (PortEvent.kd 0x88 0xFF).hidPort = some ⟨0, 0x88, 0x00FF⟩ ∧ (PortEvent.cu 0x00E9).hidPort = some ⟨3, 0, 0x00E9⟩ := by
  decide
/-- R45: channel 0 in the low bits. -/
theorem test_led_port : (PortEvent.led 1 2 3).ledPort = some 0x030201 := by decide
/-- R43, with an active-low pin: the level that stands for `true` is the pin's parameter. -/
theorem test_logical_level (p : Pin) : logicalLevel p (Config.pinActiveLevel p.number) = true := by
  simp [logicalLevel]
/-- R30: the phase codes at both ends and the middle. -/
theorem test_phase_codes : Phase.gate.code = 0 ∧ Phase.fault.code = 4 ∧ Phase.next.code = 15 ∧ Phase.wdr.code = 22 := by
  decide
/-- V11: `CTRL+ALT` is 5. -/
theorem test_modifier_bits : modCtrl 5 = true ∧ modShift 5 = false ∧ modAlt 5 = true := by decide
/-- The byte an address has unlisted is written by unlisting it, and there is nothing above address 71. -/
theorem test_memory_canonical :
    Memory.write [(3, 2)] 5 (Memory.unlisted 5) = [(3, 2)] ∧ Memory.write [] 72 1 = [] := by
  refine ⟨?_, by decide⟩
  rw [Memory.write, if_pos (by decide), if_pos rfl]
  decide
/-- R53: an address that nothing has written holds a byte, and reading it does not trap. -/
theorem test_unlisted_byte_is_read : storeRead 71 State.reset = .ok (Config.freeByte 71) := rfl

/-! One step -/

/-- A placed record is what the next step runs: `KBD 1, 65` after reset. -/
theorem test_placed_kbd : seen (step (State.reset.withFetchWord 96 0x410100)) = some (.done, [.kd 1 65]) := rfl
/-- A record that no tag decodes is placed for the decoder: S-2's `03`, the first byte read. -/
theorem test_placed_bad_tag :
    (State.reset.withFetchWord 96 0x03).ph = .load ∧ (State.reset.withFetchWord 96 0x03).store.read 0 = 3 :=
  ⟨rfl, Memory.read_writeBytes [] 0 0 (recordBytes 96 0x03) 3 (by decide) (by decide)⟩
/-- S-2: the error is taken at that read. -/
theorem test_bad_tag_faults : seen (step { at_ .load with store := [(0, 3)] }) = some (.fault, [.rb 0 3]) := rfl
/-- S-1: Key1 at the gate. -/
theorem test_gate_pressed :
    seen (step { State.reset with pinScript := [true] }) = some (.bootReq, [.sp .key1 true]) := rfl
/-- S-4: the gate released. -/
theorem test_gate_released :
    seen (step { State.reset with pinScript := [false] }) = some (.load, [.sp .key1 false]) := rfl
/-- K-13: slot 3 held raises no signal. -/
theorem test_switch_no_signal :
    (match step { at_ .scan with sl := 3, last := #v[false, false, false, true], pinScript := [true] } with
      | .next t => some (t.ph, t.sig)
      | _ => none) = some (.next, #v[false, false, false]) := rfl
/-- K-2: slot 0 held signals again. -/
theorem test_key_held_signals :
    (match step { at_ .scan with last := #v[true, false, false, false], pinScript := [true] } with
      | .next t => some (t.ph, t.sig)
      | _ => none) = some (.next, #v[true, false, false]) := rfl
/-- `rst` high abandons a dispatch and empties the trace (70_reset_and_hazards.md R230). -/
theorem test_reset_in_dispatch :
    seen (step { at_ .mUp with rstScript := [true], trace := [.wdr] }) = some (.gate, []) := rfl
/-- R262: with no settle delay the cycle that finds the engine in `K_SETTLE` is already `K_WAIT`'s. -/
theorem test_zero_wait_takes_no_cycle :
    seen (.next (waitPhase 0 (State.goto .kWait) phaseKWait { at_ .kSettle with pinScript := [false] })) =
      some (.feed, [.sp .encA false]) := rfl

/-! Witnesses: for each statement with hypotheses, a state and operands that meet them all -/

/-- Six records with every kind, the greatest macro length among them. -/
def tab2 : Vector Instr Config.nSlots :=
  #v[.kbd 0xFF 4, .macroSeq [1, 2, 3, 4, 5, 6, 7, 8, 9, 10], .cons 0xFF, .macroSeq [], .cons 0xE9, .kbd 0 0]

theorem test_witness_DecodeOfEncode_and_EncodeLength :
    (Instr.kbd 0xFF 0xFF).wellFormed = true ∧ (Instr.cons 0x00FF).wellFormed = true ∧
      (Instr.macroSeq [1, 2, 3, 4, 5, 6, 7, 8, 9, 10]).wellFormed = true := by decide

theorem test_witness_ReencodingReproducesMeaningfulBytes :
    [1, 0xFF, 0x7F, 1, 2, 3, 4, 5, 6, 7, 8, (9 : Byte)].length = Config.recBytes ∧
      decode [1, 0xFF, 0x7F, 1, 2, 3, 4, 5, 6, 7, 8, 9] = .done (.cons 0x00FF) := by decide

/-- One input for each outcome, at the boundary of the macro length and of the tags. -/
theorem test_witness_EveryRecordHasOneOutcome :
    (List.replicate 9 (1 : Byte)).length = 9 ∧
      decode (0 :: 7 :: 1 :: List.replicate 9 1) = .done (.kbd 7 1) ∧
      decode (1 :: 7 :: 1 :: List.replicate 9 1) = .done (.cons 7) ∧
      decode (2 :: 10 :: 1 :: List.replicate 9 1) = .done (.macroSeq (List.replicate 10 1)) ∧
      decode (2 :: 11 :: 1 :: List.replicate 9 1) = .badMacroLength 11 ∧
      decode (3 :: 7 :: 1 :: List.replicate 9 1) = .badTag 3 := by decide

theorem test_witness_UnusedBytesNeverMatter :
    decode [0, 1, 2] ≠ .needMore ∧ decode [2, 11] ≠ .needMore ∧ decode [3] ≠ .needMore := by decide

theorem test_witness_StepRunsTheCurrentDescriptor :
    rstNow (at_ .act) = false ∧ rstNow (at_ .act2) = false ∧ rstNow (at_ .mDown) = false ∧ rstNow (at_ .mW1) = false ∧
      rstNow (at_ .mUp) = false ∧ rstNow { at_ .mW2 with rstScript := [false, true] } = false := by decide

theorem test_witness_PlacedRecordRunsAtTheNextStep :
    decodeTableWord 96 0x0A0908070605040302010A02 = some (.macroSeq [1, 2, 3, 4, 5, 6, 7, 8, 9, 10]) ∧
      decodeTableWord 8 0x00 = some (.kbd 0 0) := by decide

theorem test_witness_GateSamplesKeyOneOnce : rstNow State.reset = false ∧ State.reset.ph = .gate := by decide

theorem test_witness_BootloaderRequestThenNothing :
    NoReset { State.reset with pinScript := true :: [false] } ∧
      { State.reset with pinScript := true :: [false] }.ph = .gate := ⟨rfl, rfl⟩

theorem test_witness_TerminalPhasesStayForEver :
    NoReset (at_ .boot) ∧ (at_ .boot).ph = .boot ∧ NoReset (at_ .fault) ∧ (at_ .fault).ph = .fault := ⟨rfl, rfl, rfl, rfl⟩

/-- Each clause: a byte that leaves the record open, the last byte of record 4, the last byte of record 5. -/
theorem test_witness_LoadReadsOneByteACycle :
    (∃ s : State, rstNow s = false ∧ s.ph = .load ∧ s.store.read (Config.recBytes * s.li.val + s.recBuf.length) = 2 ∧
      decode (s.recBuf ++ [2]) = .needMore) ∧
    (∃ s : State, rstNow s = false ∧ s.ph = .load ∧ s.li.val = 4 ∧
      s.store.read (Config.recBytes * s.li.val + s.recBuf.length) = 0xE9 ∧
      decode (s.recBuf ++ [0xE9]) = .done (.cons 0xE9)) ∧
    (∃ s : State, rstNow s = false ∧ s.ph = .load ∧ s.li.val = 5 ∧
      s.store.read (Config.recBytes * s.li.val + s.recBuf.length) = 9 ∧
      decode (s.recBuf ++ [9]) = .done (.kbd 8 9)) :=
  ⟨⟨{ at_ .load with store := [(0, 2)] }, by decide⟩,
    ⟨{ at_ .load with li := 4, recBuf := [1], store := [(49, 0xE9)] }, by decide⟩,
    ⟨{ at_ .load with li := 5, recBuf := [0, 8], store := [(62, 9)] }, by decide⟩⟩

/-- The two ends of the illegal tags. -/
theorem test_witness_BadTagTakesConfigDecodeError :
    (∃ s : State, NoReset s ∧ s.ph = .load ∧ s.recBuf = [] ∧ 3 ≤ (3 : Byte).toNat ∧
      s.store.read (Config.recBytes * s.li.val) = 3) ∧
    (∃ s : State, NoReset s ∧ s.ph = .load ∧ s.recBuf = [] ∧ 3 ≤ (255 : Byte).toNat ∧
      s.store.read (Config.recBytes * s.li.val) = 255) :=
  ⟨⟨{ at_ .load with store := [(0, 3)] }, rfl, by decide⟩,
    ⟨{ at_ .load with li := 5, store := [(60, 255)] }, rfl, by decide⟩⟩

/-- The two ends of the illegal lengths. -/
theorem test_witness_BadMacroLengthTakesConfigDecodeError :
    (∃ s : State, NoReset s ∧ s.ph = .load ∧ s.recBuf = [] ∧ 11 ≤ (11 : Byte).toNat ∧
      s.store.read (Config.recBytes * s.li.val) = 2 ∧ s.store.read (Config.recBytes * s.li.val + 1) = 11) ∧
    (∃ s : State, NoReset s ∧ s.ph = .load ∧ s.recBuf = [] ∧ 11 ≤ (255 : Byte).toNat ∧
      s.store.read (Config.recBytes * s.li.val) = 2 ∧ s.store.read (Config.recBytes * s.li.val + 1) = 255) :=
  ⟨⟨{ at_ .load with store := [(0, 2), (1, 11)] }, rfl, by decide⟩,
    ⟨{ at_ .load with li := 5, store := [(60, 2), (61, 255)] }, rfl, by decide⟩⟩

/-- Each kind, at record 0 and at the last one. -/
theorem test_witness_LegalRecordIsDecodedByItsReads :
    (NoReset { at_ .load with store := storeOf [.kbd 1 65] } ∧ HoldsRecord (storeOf [.kbd 1 65]) 0 (.kbd 1 65)) ∧
    HoldsRecord (storeOf tab2.toList) 1 tab2[1] ∧ HoldsRecord (storeOf tab2.toList) 4 (.cons 0xE9) ∧
    HoldsRecord (storeOf tab2.toList) 5 (.kbd 0 0) ∧ (∀ i : Fin 6, tab2[i].wellFormed = true) :=
  ⟨⟨rfl, holdsRecord_of_all (by decide)⟩, holdsRecord_of_all (by decide), holdsRecord_of_all (by decide),
    holdsRecord_of_all (by decide), by decide⟩

theorem test_witness_LegalStoreLoadsTheWholeTable :
    let s : State := { at_ .load with store := storeOf tab2.toList }
    NoReset s ∧ s.ph = .load ∧ s.li = 0 ∧ s.recBuf = [] ∧
      ∀ i : Fin Config.nSlots, tab2[i].wellFormed = true ∧ HoldsRecord s.store i tab2[i] := by
  refine ⟨rfl, rfl, rfl, rfl, fun i => ⟨by revert i; decide, holdsRecord_of_all ?_⟩⟩
  revert i
  decide

/-- `ACT` with each event (also `ConsumerEmitsByEvent`). -/
theorem test_witness_KeyboardEmitsByEvent :
    (at_ .act).ph = .act ∧ (at_ .act).ev = .press ∧ { at_ .act with ev := .release }.ev = .release ∧
      { at_ .act with ev := .trigger }.ev = .trigger := ⟨rfl, rfl, rfl, rfl⟩

/-- Each clause: the start on Trigger, Release, the first and the last code, the end of the macro. -/
theorem test_witness_MacroCyclesByPhase :
    { at_ .act with ev := .trigger }.ev ≠ .release ∧ { at_ .act with ev := .release }.ev = .release ∧
      [4, (5 : Byte)][(at_ .mDown).mi]? = some 4 ∧ [4, (5 : Byte)][{ at_ .mDown with mi := 1 }.mi]? = some 5 ∧
      { at_ .mDown with mi := 2 }.mi = [4, (5 : Byte)].length ∧ [4, (5 : Byte)][{ at_ .mUp with mi := 1 }.mi]? = some 5 ∧
      (at_ .mUp).ph = .mUp := by decide

theorem test_witness_MacroWaitCycles :
    (at_ .mW1).ph = .mW1 ∧ { at_ .mW2 with dly := 1 }.ph = .mW2 := ⟨rfl, rfl⟩

/-- A dispatch of each kind that goes on. -/
theorem test_witness_DispatchFrame :
    (∃ t, exec (.kbd 1 65) (at_ .act) = .next t) ∧ (∃ t, exec (.cons 0xE9) (at_ .act) = .next t) ∧
      (∃ t, exec (.macroSeq [4]) (at_ .act) = .next t) := ⟨⟨_, rfl⟩, ⟨_, rfl⟩, ⟨_, rfl⟩⟩

/-- Each stop happens. -/
theorem test_witness_DispatchStopsOnlyOffTheTables :
    exec (.kbd 1 65) (at_ .act2) = .fault .noSuchDispatchRow ∧
      exec (.cons 0xE9) (at_ .mW1) = .fault .noSuchDispatchRow ∧
      exec (.macroSeq [4]) { at_ .mUp with mi := 1 } = .fault .macroIndexPastLength ∧
      exec (.macroSeq [4]) { at_ .mDown with mi := 2 } = .fault .macroIndexPastLength ∧
      exec (.macroSeq [4]) (at_ .done) = .fault .notDispatching := ⟨rfl, rfl, rfl, rfl, rfl⟩

theorem test_witness_DispatchPhasesRunTheProgram :
    let s : State := { at_ .act with desc := tab2, sl := 1 }
    NoReset s ∧ s.ph = .act ∧ s.dly = 0 ∧ s.desc[s.sl] = .macroSeq [1, 2, 3, 4, 5, 6, 7, 8, 9, 10] :=
  ⟨rfl, rfl, rfl, rfl⟩

theorem test_witness_MacroDispatchStepByStep :
    let s : State := { at_ .act with desc := tab2, sl := 3, ev := .release }
    NoReset s ∧ s.ph = .act ∧ s.dly = 0 ∧ s.desc[s.sl] = .macroSeq [] := ⟨rfl, rfl, rfl, rfl⟩

/-- The waits whose length the spec fixes; the two open ones meet it whenever their parameter is above 0. -/
theorem test_witness_FixedWaitsTakeTheirTime :
    (NoReset (at_ .cool) ∧ (at_ .cool).dly = 0 ∧ 0 < (at_ .cool).ph.waitMs) ∧
      (NoReset { at_ .mW1 with desc := tab2, sl := 1 } ∧ kindOf tab2[1] = .macroKind ∧ 0 < Phase.mW1.waitMs) ∧
      0 < Phase.mW2.waitMs := ⟨⟨rfl, rfl, by decide⟩, ⟨rfl, rfl, by decide⟩, by decide⟩

theorem test_witness_ScanLeadsByEdge :
    (rstNow (at_ .scan) = false ∧ (at_ .scan).ph = .scan ∧ (at_ .scan).sl = keySlot 0) ∧
      ({ at_ .scan with sl := 3 }.sl = keySlot 3) := ⟨⟨rfl, rfl, rfl⟩, rfl⟩

/-- Each clause, the key slots at both ends. -/
theorem test_witness_AfterADispatch :
    NoReset (at_ .done) ∧ (at_ .done).ph = .done ∧ (at_ .cool).dly = 0 ∧ (at_ .commit).sl = keySlot 0 ∧
      { at_ .commit with sl := 3 }.sl = keySlot 3 ∧ { at_ .next with sl := 2 }.sl.val < 3 ∧
      { at_ .next with sl := 3 }.sl.val = 3 := ⟨rfl, rfl, rfl, rfl, rfl, by decide, rfl⟩

theorem test_witness_KeyPhasesRunOnSample :
    let s : State := { at_ .scan with desc := tab2, sl := 3, last := #v[false, false, false, true], pinScript := [false] }
    NoReset s ∧ s.ph = .scan ∧ s.sl = keySlot 3 ∧ s.dly = 0 ∧ s.pinScript = false :: [] := ⟨rfl, rfl, rfl, rfl, rfl⟩

/-- Each clause but those on the open `T_SETTLE`, of which any value meets one. -/
theorem test_witness_KnobPhases :
    NoReset (at_ .knobA) ∧ (at_ .knobA).ph = .knobA ∧ (at_ .knobB).ph = .knobB ∧ (at_ .kSettle).dly = 0 ∧
      (Config.tSettle = 0 ∨ 0 < Config.tSettle) ∧ (at_ .kWait).ph = .kWait :=
  ⟨rfl, rfl, rfl, rfl, Nat.eq_zero_or_pos _, rfl⟩

theorem test_witness_KnobPhasesRunTheProgram :
    let s : State := { at_ .knobA with sl := 3, desc := tab2, pinScript := [true, false, true, true, false] }
    NoReset s ∧ s.ph = .knobA ∧ s.dly = 0 ∧ s.pinScript = knobAnswers (some ⟨false, 2⟩) ++ [] := ⟨rfl, rfl, rfl, rfl⟩

theorem test_witness_DetentThatNeverClearsHangs :
    let s : State := { at_ .kWait with pinScript := [true, true, true] }
    NoReset s ∧ s.ph = .kWait ∧ s.pinScript = List.replicate 3 true ++ [] := ⟨rfl, rfl, rfl⟩

/-- A signalled channel and one at the floor. -/
theorem test_witness_FeedSetsDecaysAndPushes :
    let s : State := { at_ .feed with sig := #v[true, false, false] }
    rstNow s = false ∧ s.ph = .feed ∧ s.sig[(0 : Fin 3)] = true ∧ s.sig[(1 : Fin 3)] = false ∧
      s.fb[(1 : Fin 3)].toNat ≤ Config.fbFloor.toNat := ⟨rfl, rfl, rfl, rfl, Nat.le_refl _⟩

/-- Both clauses: a released channel at the floor, over a falling edge and an idle iteration, and a pressed one. -/
theorem test_witness_DecayIsOnePerIterationDownToTheFloor :
    (∀ x ∈ [IterationInput.mk #v[true, false, true, false] none, ⟨#v[false, false, true, true], some ⟨true, 2⟩⟩],
      x.keys[channelKey 1] = false ∧ x.keys[channelKey 2] = true) ∧
      Config.fbFloor ≤ State.reset.fb[(1 : Fin 3)] := ⟨by decide, BitVec.le_refl _⟩

theorem test_witness_IterationEndsWithDelayAndRefresh :
    NoReset (at_ .endDly) ∧ (at_ .endDly).ph = .endDly ∧ (at_ .endDly).dly = 0 ∧
      (Config.tLoop = 0 ∨ 0 < Config.tLoop) ∧ (at_ .wdr).ph = .wdr := ⟨rfl, rfl, rfl, Nat.eq_zero_or_pos _, rfl⟩

/-- P3's first iteration. -/
theorem test_witness_IterationPhasesRunTheProgram :
    let s : State := { at_ .scan with desc := tab2, pinScript := [false, false, false, true, true, true, true, true, false] }
    NoReset s ∧ s.ph = .scan ∧ s.sl = 0 ∧ s.sig = #v[false, false, false] ∧ s.dly = 0 ∧
      s.pinScript = (IterationInput.mk #v[false, false, false, true] (some ⟨true, 2⟩)).answers ++ [] :=
  ⟨rfl, rfl, rfl, rfl, rfl, rfl⟩

/-- Also `IterationDelaySumIsBounded`. -/
theorem test_witness_EngineRunsItsProgram :
    ∀ i : Fin Config.nSlots, tab2[i].wellFormed = true ∧ HoldsRecord (storeOf tab2.toList) i tab2[i] := by
  refine fun i => ⟨by revert i; decide, holdsRecord_of_all ?_⟩
  revert i
  decide

theorem test_witness_ResetAbandonsEverything : rstNow { at_ .mUp with rstScript := [true] } = true := rfl

/-- A step that goes on (for every statement about a next state with `rst` low). -/
theorem test_witness_AtMostOneTransactionPerCycle :
    ∃ t, rstNow State.reset = false ∧ step State.reset = .next t := ⟨_, rfl, rfl⟩

/-- Each branch: `WDR` samples nothing, `GATE` samples Key1, from two environments with the same next answer, and a slot
no key owns stops. -/
theorem test_witness_PinsAreReadOnlyBySampling :
    (∃ t, rstNow (at_ .wdr) = false ∧ step (at_ .wdr) = .next t ∧ t.trace = [.wdr]) ∧
      (∃ t, step { at_ .gate with pinScript := [true] } = .next t ∧ t.trace = [.sp .key1 true]) ∧
      pinAnswer { at_ .gate with pinScript := [true, false] } = pinAnswer { at_ .gate with pinScript := [true] } ∧
      step { at_ .scan with sl := 4 } = .fault .slotHasNoKey := ⟨⟨_, rfl, rfl, rfl⟩, ⟨_, rfl, rfl⟩, rfl, rfl⟩

/-- About to load a store. -/
def loading (m : Memory) : State := { at_ .load with store := m }

theorem loading_legal {m : Memory} (hm : m.wf) : (loading m).Legal := by
  constructor <;> (try simp [loading, at_, State.reset, Phase.ofKey, Phase.dispatching, Phase.inMacro, Phase.edgePending])
  · exact hm
  · simp [Instr.wellFormed]
  · exact fbFloor_le_fbMax
  · rfl

/-- Also `LegalStatesAlwaysGoOn`: a legal state with an unprogrammed store, which goes on. -/
theorem test_witness_EveryStepKeepsLegality : (loading []).Legal ∧ ∃ t, step (loading []) = .next t :=
  ⟨loading_legal ⟨List.Pairwise.nil, by simp⟩, ⟨_, rfl⟩⟩

/-- The least timeout that meets the premise, whatever the parameters are. -/
theorem test_witness_DelaySumBetweenRefreshesIsBounded :
    (∀ i : Fin Config.nSlots, tab2[i].wellFormed = true) ∧
      Config.tLoop + Config.tSettle + 500 < Config.tLoop + Config.tSettle + 501 := ⟨by decide, by omega⟩

/-- Each stop happens. -/
theorem test_witness_StepStopsExactlyWhereNoRuleSpeaks :
    step { at_ .load with li := 5, recBuf := List.replicate 12 0 } = .fault (.storeAddressAbsent 72) ∧
      step { at_ .next with sl := 4 } = .fault .slotHasNoKey ∧
      step (at_ .act2) = .fault .noSuchDispatchRow ∧
      step { at_ .mUp with desc := tab2, sl := 1, mi := 10 } = .fault .macroIndexPastLength := ⟨rfl, rfl, rfl, rfl⟩

/-- `LOAD` writes record 0, and record 1 keeps its own (also `ErrorFlagIsSticky`'s other side: no error). -/
theorem test_witness_TableIsReadOnlyAfterLoad :
    let s : State := { at_ .load with recBuf := [1], store := [(1, 5)] }
    rstNow s = false ∧ (∃ t, step s = .next t ∧ t.desc[0] = .cons 5) ∧ (1 : Fin Config.nSlots) ≠ s.li :=
  ⟨rfl, ⟨_, rfl, rfl⟩, by decide⟩

/-- `COMMIT` of slot 0 changes `LAST[0]` and raises `SIG[0]`; `NEXT` is not `FEED`. -/
theorem test_witness_EachFlagHasOneOwner :
    let s : State := { at_ .commit with cp := true }
    rstNow s = false ∧ (∃ t, step s = .next t ∧ t.last[(0 : Fin 4)] ≠ s.last[(0 : Fin 4)] ∧ s.sig[(0 : Fin 3)] = false ∧
      t.sig[(0 : Fin 3)] = true) ∧ (at_ .next).ph ≠ .feed := ⟨rfl, ⟨_, rfl, by decide, rfl, rfl⟩, by decide⟩

/-- The flag rises, and stays in `FAULT`. -/
theorem test_witness_ErrorFlagIsSticky :
    (∃ t, step { at_ .load with store := [(0, 3)] } = .next t ∧ (at_ .load).cfgErr = false ∧ t.cfgErr = true) ∧
      ∃ t, step { at_ .fault with cfgErr := true } = .next t := ⟨⟨_, rfl, rfl, rfl⟩, ⟨_, rfl⟩⟩

theorem test_witness_PortsCarryTheArguments : 71 < Config.cfgBytes := by decide

end Sys2Proof.Tests
end

section
/-! SUPPORT. Where a dispatch stops, for each kind of descriptor (O21). -/

namespace Sys2Proof.Machine

variable {s t : State}

theorem pulseDispatch_ne_refused (down up : PortEvent) (s : State) (r : Refusal) :
    pulseDispatch down up s ≠ .refused r := by
  unfold pulseDispatch
  split <;> simp

theorem execMacroSeq_ne_refused (codes : List Byte) (s : State) (r : Refusal) :
    execMacroSeq codes s ≠ .refused r := by
  unfold execMacroSeq macroDown macroUp
  repeat' split
  all_goals simp

/-- No arm of `exec` is refused. -/
theorem exec_ne_refused (i : Instr) (s : State) (r : Refusal) : exec i s ≠ .refused r := by
  cases i with
  | kbd m c => exact pulseDispatch_ne_refused _ _ s r
  | cons k => exact pulseDispatch_ne_refused _ _ s r
  | macroSeq codes => exact execMacroSeq_ne_refused codes s r

/-- `KBD` and `CONS` stop in an `ACT2` that is no Trigger's, in the sequencer's phases, and outside a dispatch
(45_main_loop.md R182). -/
theorem pulseDispatch_fault_iff (down up : PortEvent) (s : State) (f : Fault) :
    pulseDispatch down up s = .fault f ↔
      (f = .noSuchDispatchRow ∧ ((s.ph = .act2 ∧ s.ev ≠ .trigger) ∨ s.ph.inMacro = true)) ∨
      (f = .notDispatching ∧ (s.ph.dispatching = false ∨ s.ph = .done)) := by
  unfold pulseDispatch
  cases hp : s.ph <;> cases he : s.ev <;> simp [Phase.inMacro, Phase.dispatching, eq_comm]

theorem macroDown_fault_iff (codes : List Byte) (s : State) (f : Fault) :
    macroDown codes s = .fault f ↔ f = .macroIndexPastLength ∧ codes.length < s.mi := by
  unfold macroDown macroCode macroLength
  rcases Nat.lt_trichotomy s.mi codes.length with h | h | h
  · simp [List.getElem?_eq_getElem h, Nat.not_lt_of_lt h]
  · simp [h]
  · simp [List.getElem?_eq_none (Nat.le_of_lt h), h, h.ne', eq_comm]

theorem macroUp_fault_iff (codes : List Byte) (s : State) (f : Fault) :
    macroUp codes s = .fault f ↔ f = .macroIndexPastLength ∧ codes.length ≤ s.mi := by
  unfold macroUp macroCode
  rcases Nat.lt_or_ge s.mi codes.length with h | h
  · simp [List.getElem?_eq_getElem h, Nat.not_le_of_lt h]
  · simp [h, eq_comm]

/-- `MACRO` stops in `ACT2`, past its codes, and outside a dispatch (45_main_loop.md R182, R183). -/
theorem execMacroSeq_fault_iff (codes : List Byte) (s : State) (f : Fault) :
    execMacroSeq codes s = .fault f ↔
      (f = .noSuchDispatchRow ∧ s.ph = .act2) ∨
      (f = .macroIndexPastLength ∧ ((s.ph = .mDown ∧ codes.length < s.mi) ∨ (s.ph = .mUp ∧ codes.length ≤ s.mi))) ∨
      (f = .notDispatching ∧ (s.ph.dispatching = false ∨ s.ph = .done)) := by
  unfold execMacroSeq
  cases hp : s.ph
  case mDown => simp [macroDown_fault_iff, Phase.dispatching]
  case mUp => simp [macroUp_fault_iff, Phase.dispatching]
  all_goals simp [Phase.dispatching, eq_comm]

theorem exec_fault_iff (i : Instr) (s : State) (f : Fault) : exec i s = .fault f ↔ DispatchStops i s f := by
  cases i with
  | kbd m c =>
    exact (pulseDispatch_fault_iff _ _ s f).trans (by simp [DispatchStops, kindOf])
  | cons k =>
    exact (pulseDispatch_fault_iff _ _ s f).trans (by simp [DispatchStops, kindOf])
  | macroSeq codes =>
    exact (execMacroSeq_fault_iff codes s f).trans (by simp [DispatchStops, kindOf, codeCount])

/-- What is neither refused nor a fault goes on. -/
theorem exec_next_iff (i : Instr) (s : State) : (∃ t, exec i s = .next t) ↔ ∀ f, ¬ DispatchStops i s f := by
  simp only [← exec_fault_iff]
  cases he : exec i s with
  | next t => simp
  | fault f => simp
  | refused r => exact absurd he (exec_ne_refused i s r)

/-- Settles O21, by the stops of each kind of descriptor. -/
theorem dispatchStopsOnlyOffTheTables : Obligations.DispatchStopsOnlyOffTheTables := by
  intro i s
  exact ⟨exec_fault_iff i s, exec_ne_refused i s, exec_next_iff i s⟩

end Sys2Proof.Machine
end

section
/-! SUPPORT. What one cycle does to the descriptor table, `LAST`, `SIG` and `FB` (O50, O51). -/

namespace Sys2Proof.Machine

variable {s t : State}

/-- Who writes the descriptor table and the flags, and with what: everything else keeps them (10_state.md R24, R37). -/
structure FlagWrites (s t : State) : Prop where
  desc : t.desc = s.desc ∨ s.ph = .load ∧ ∃ d, t.desc = s.desc.set s.li.val d s.li.isLt
  last : t.last = s.last ∨
    s.ph = .commit ∧ ∃ (k : Fin Config.nKeys) (b : Bool), k.val = s.sl.val ∧ t.last = s.last.set k.val b k.isLt
  sig : t.sig = s.sig ∨ t.sig = noSignals ∨ (s.ph = .scan ∨ s.ph = .commit) ∧ t.sig = signalled s.sl s.sig
  fb : t.fb = s.fb ∨ s.ph = .feed

/-- The descriptor table and the flags are the same in two states. -/
def SameFlags (s t : State) : Prop := t.desc = s.desc ∧ t.last = s.last ∧ t.sig = s.sig ∧ t.fb = s.fb

theorem SameFlags.flagWrites (h : SameFlags s t) : FlagWrites s t := by
  obtain ⟨hd, hl, hs, hf⟩ := h
  exact ⟨.inl hd, .inl hl, .inl hs, .inl hf⟩

/-! The dispatch and the waits write none of them -/

theorem delayCycle_goto_sameFlags (ms : Nat) (p : Phase) (s : State) :
    SameFlags s (delayCycle ms (State.goto p) s) := by
  obtain ⟨d, tr, q, h, -, -⟩ := delayCycle_goto_frame ms p s
  rw [h]
  exact ⟨rfl, rfl, rfl, rfl⟩

theorem delayCycle_macroAdvance_sameFlags (ms : Nat) (s : State) : SameFlags s (delayCycle ms macroAdvance s) := by
  rw [delayCycle_eq]
  split <;> exact ⟨rfl, rfl, rfl, rfl⟩

theorem macroAct_sameFlags (s : State) : SameFlags s (macroAct s) := by
  unfold macroAct
  split <;> exact ⟨rfl, rfl, rfl, rfl⟩

theorem pulseDispatch_sameFlags {down up : PortEvent} (h : pulseDispatch down up s = .next t) : SameFlags s t := by
  obtain ⟨-, -, rfl⟩ | ⟨-, -, rfl⟩ | ⟨-, -, rfl⟩ | ⟨-, -, rfl⟩ := pulseDispatch_next h <;> exact ⟨rfl, rfl, rfl, rfl⟩

theorem execMacroSeq_sameFlags {codes : List Byte} (h : execMacroSeq codes s = .next t) : SameFlags s t := by
  obtain ⟨-, rfl⟩ | ⟨-, c, -, rfl⟩ | ⟨-, -, rfl⟩ | ⟨-, rfl⟩ | ⟨-, c, -, rfl⟩ | ⟨-, rfl⟩ := execMacroSeq_next h
  · exact macroAct_sameFlags s
  · exact ⟨rfl, rfl, rfl, rfl⟩
  · exact ⟨rfl, rfl, rfl, rfl⟩
  · exact delayCycle_goto_sameFlags _ _ s
  · exact ⟨rfl, rfl, rfl, rfl⟩
  · exact delayCycle_macroAdvance_sameFlags _ s

theorem exec_sameFlags {i : Instr} (h : exec i s = .next t) : SameFlags s t := by
  cases i with
  | kbd m c => exact pulseDispatch_sameFlags h
  | cons k => exact pulseDispatch_sameFlags h
  | macroSeq codes => exact execMacroSeq_sameFlags h

theorem phaseKSettle_sameFlags (s : State) : SameFlags s (phaseKSettle s) := by
  obtain ⟨-, h⟩ | ⟨-, h⟩ := waitPhase_cases Config.tSettle (State.goto .kWait) phaseKWait s
  · rw [phaseKSettle, h]
    exact ⟨rfl, rfl, rfl, rfl⟩
  · rw [phaseKSettle, h]
    exact delayCycle_goto_sameFlags _ _ s

/-! The phases that own one of them -/

theorem loadDecoded_flagWrites (got : List Byte) (hp : s.ph = .load) : FlagWrites s (loadDecoded got s) := by
  obtain ⟨-, h⟩ | ⟨d, i, -, -, h⟩ | ⟨d, -, -, h⟩ | ⟨b, -, h⟩ | ⟨n, -, h⟩ := loadDecoded_cases got s <;> rw [h]
  · exact SameFlags.flagWrites ⟨rfl, rfl, rfl, rfl⟩
  · exact ⟨.inr ⟨hp, d, rfl⟩, .inl rfl, .inl rfl, .inl rfl⟩
  · exact ⟨.inr ⟨hp, d, rfl⟩, .inl rfl, .inr (.inl rfl), .inl rfl⟩
  · exact SameFlags.flagWrites ⟨rfl, rfl, rfl, rfl⟩
  · exact SameFlags.flagWrites ⟨rfl, rfl, rfl, rfl⟩

theorem scanEdge_flagWrites (e : Edge) (hp : s.ph = .scan) : FlagWrites s (scanEdge e s) := by
  cases e with
  | hold => exact ⟨.inl rfl, .inl rfl, .inr (.inr ⟨.inl hp, rfl⟩), .inl rfl⟩
  | rising => exact SameFlags.flagWrites ⟨rfl, rfl, rfl, rfl⟩
  | falling => exact SameFlags.flagWrites ⟨rfl, rfl, rfl, rfl⟩
  | idle => exact SameFlags.flagWrites ⟨rfl, rfl, rfl, rfl⟩

theorem phaseWdr_flagWrites (s : State) : FlagWrites s (phaseWdr s) := ⟨.inl rfl, .inl rfl, .inr (.inl rfl), .inl rfl⟩

theorem phaseEndDly_flagWrites (s : State) : FlagWrites s (phaseEndDly s) := by
  obtain ⟨-, h⟩ | ⟨-, h⟩ := waitPhase_cases Config.tLoop (State.goto .wdr) phaseWdr s
  · rw [phaseEndDly, h]
    exact ⟨.inl rfl, .inl rfl, .inr (.inl rfl), .inl rfl⟩
  · rw [phaseEndDly, h]
    exact (delayCycle_goto_sameFlags _ _ s).flagWrites

/-- Everything one cycle can do to the descriptor table and the flags. -/
theorem phaseCycle_flagWrites (h : phaseCycle s = .next t) : FlagWrites s t := by
  obtain ⟨-, rfl⟩ | ⟨-, rfl⟩ | ⟨-, rfl⟩ | ⟨hp, -, rfl⟩ | ⟨hp, k, -, rfl⟩ | ⟨-, -, he⟩ | ⟨-, rfl⟩ | ⟨-, rfl⟩ |
    ⟨hp, k, hk, rfl⟩ | ⟨-, i, -, -, rfl⟩ | ⟨-, -, rfl⟩ | ⟨-, rfl⟩ | ⟨-, rfl⟩ | ⟨-, rfl⟩ | ⟨-, rfl⟩ | ⟨hp, rfl⟩ |
    ⟨-, rfl⟩ | ⟨-, rfl⟩ := phaseCycle_cases h
  · exact SameFlags.flagWrites ⟨rfl, rfl, rfl, rfl⟩
  · exact SameFlags.flagWrites ⟨rfl, rfl, rfl, rfl⟩
  · exact SameFlags.flagWrites ⟨rfl, rfl, rfl, rfl⟩
  · obtain ⟨hd, hl, hs, hf⟩ := loadDecoded_flagWrites (s := s.log _) _ hp
    exact ⟨hd, hl, hs, hf⟩
  · obtain ⟨hd, hl, hs, hf⟩ := scanEdge_flagWrites (s := { takeSample (keyPin k) s with cp := pinAnswer s }) _ hp
    exact ⟨hd, hl, hs, hf⟩
  · exact SameFlags.flagWrites (exec_sameFlags he)
  · exact SameFlags.flagWrites ⟨rfl, rfl, rfl, rfl⟩
  · exact SameFlags.flagWrites (delayCycle_goto_sameFlags _ _ s)
  · refine ⟨.inl rfl, .inr ⟨hp, k, s.cp, keyOf_some hk, rfl⟩, ?_, .inl rfl⟩
    cases hc : s.cp with
    | true => exact .inr (.inr ⟨.inr hp, rfl⟩)
    | false => exact .inl rfl
  · exact SameFlags.flagWrites ⟨rfl, rfl, rfl, rfl⟩
  · exact SameFlags.flagWrites ⟨rfl, rfl, rfl, rfl⟩
  · exact SameFlags.flagWrites ⟨rfl, rfl, rfl, rfl⟩
  · exact SameFlags.flagWrites ⟨rfl, rfl, rfl, rfl⟩
  · exact SameFlags.flagWrites (phaseKSettle_sameFlags s)
  · exact SameFlags.flagWrites ⟨rfl, rfl, rfl, rfl⟩
  · exact ⟨.inl rfl, .inl rfl, .inl rfl, .inr hp⟩
  · exact phaseEndDly_flagWrites s
  · exact phaseWdr_flagWrites s

theorem step_flagWrites (hr : rstNow s = false) (h : step s = .next t) : FlagWrites s t := by
  rw [step_low hr] at h
  obtain ⟨hd, hl, hs, hf⟩ := phaseCycle_flagWrites h
  exact ⟨hd, hl, hs, hf⟩

/-- A signal that comes up is the signal of the slot being processed. -/
theorem signal_rises_of_signalled {c : Fin Config.nFb} {i : Fin Config.nSlots} {sig : Vector Bool Config.nFb}
    (h0 : sig[c] = false) (h1 : (signalled i sig)[c] = true) : i.val = c.val := by
  by_contra hne
  rw [signalled_eq, Fin.getElem_fin, Vector.getElem_setIfInBounds_ne c.isLt hne] at h1
  simp_all

/-- Settles O50: `LOAD` alone writes the table, at `LI`. -/
theorem tableIsReadOnlyAfterLoad : Obligations.TableIsReadOnlyAfterLoad := by
  intro s t hr h
  obtain hd | ⟨hp, d, hd⟩ := (step_flagWrites hr h).desc
  · exact ⟨fun _ => hd, fun i _ => by rw [hd]⟩
  · refine ⟨fun hn => absurd hp hn, fun i hi => ?_⟩
    have hne : s.li.val ≠ i.val := fun e => hi (Fin.ext e.symm)
    simp [hd, Vector.getElem_set_ne _ _ hne]

/-- Settles O51, by what one cycle can write. -/
theorem eachFlagHasOneOwner : Obligations.EachFlagHasOneOwner := by
  intro s t hr h
  have w := step_flagWrites hr h
  refine ⟨fun k hk => ?_, fun c h0 h1 => ?_, fun hp => w.fb.resolve_right hp⟩
  · obtain hl | ⟨hp, j, b, hj, hl⟩ := w.last
    · exact absurd (by rw [hl]) hk
    · refine ⟨hp, ?_⟩
      by_contra hne
      exact hk (by simp [hl, Vector.getElem_set_ne _ _ (show j.val ≠ k.val by omega)])
  · obtain hs | hs | ⟨hp, hs⟩ := w.sig
    · rw [hs, h0] at h1
      cases h1
    · simp [hs, noSignals] at h1
    · rw [hs] at h1
      exact ⟨hp, signal_rises_of_signalled h0 h1⟩

end Sys2Proof.Machine
end

section
/-! SUPPORT. No run shows the registers that R36 leaves unspecified at reset (O53): two states that agree but for such a
register not yet written go on to two such states. -/

namespace Sys2Proof.Machine

variable {s t : State}

/-- Values for the registers that 10_state.md R36 leaves unspecified at reset. -/
structure Unspecified where
  desc : Vector Instr Config.nSlots
  ev : KeyEvent
  cp : Bool
  mi : Nat
  err : ErrRecord

/-- The state with other values in these registers. -/
def State.under (x : Unspecified) (s : State) : State :=
  { s with desc := x.desc, ev := x.ev, cp := x.cp, mi := x.mi, err := x.err }

/-- The state's own values of these registers. -/
def State.unspecified (s : State) : Unspecified := ⟨s.desc, s.ev, s.cp, s.mi, s.err⟩

/-- The phases after the load, in which all six descriptors are written (45_main_loop.md R180). -/
def Phase.tableKnown : Phase → Bool
  | .gate | .bootReq | .boot | .load | .fault => false
  | _ => true

/-- The phases past a `SCAN`, in which `CP` is written (45_main_loop.md R181). -/
def Phase.sampleKnown : Phase → Bool
  | .scan => false
  | p => p.tableKnown

/-- Every register written before the phase `q` is written before `p`. -/
abbrev Phase.KnownBefore (p q : Phase) : Prop :=
  (q.tableKnown = true → p.tableKnown = true) ∧ (q.sampleKnown = true → p.sampleKnown = true) ∧
    (q.dispatching = true → p.dispatching = true) ∧ (q.inMacro = true → p.inMacro = true)

/-- The values are the state's own wherever a rule has written the register: they may differ in a descriptor not yet
loaded, in `EV` outside a dispatch, in `CP` before a `SCAN`, in `MI` outside a `MACRO`, in `ERR` before the error. -/
structure Unseen (x : Unspecified) (s : State) : Prop where
  desc : s.ph.tableKnown = true → x.desc = s.desc
  loaded : s.ph = .load → ∀ i : Fin Config.nSlots, i < s.li → x.desc[i] = s.desc[i]
  ev : s.ph.dispatching = true → x.ev = s.ev
  cp : s.ph.sampleKnown = true → x.cp = s.cp
  mi : s.ph.inMacro = true → x.mi = s.mi
  err : s.cfgErr = true → x.err = s.err

/-- Two runs stand in states that show the same, or stopped for the same reason. -/
def SameShown : Host.Outcome State Fault Refusal → Host.Outcome State Fault Refusal → Prop
  | .next t, .next u => ∃ x, Unseen x t ∧ u = t.under x
  | .fault f, .fault g => f = g
  | _, _ => False

variable {x : Unspecified}

theorem unseen_unspecified (s : State) : Unseen s.unspecified s :=
  ⟨fun _ => rfl, fun _ _ _ => rfl, fun _ => rfl, fun _ => rfl, fun _ => rfl, fun _ => rfl⟩

theorem sameShown_next (h : Unseen x t) : SameShown (.next t) (.next (t.under x)) := ⟨x, h, rfl⟩

/-- A cycle that writes none of the registers, to a phase that needs none more. -/
theorem Unseen.of_kept (h : Unseen x s) {p : Phase} (q : Phase) (hu : t.unspecified = s.unspecified)
    (he : t.cfgErr = s.cfgErr) (hs : s.ph = p) (ht : t.ph = q) (hk : p.KnownBefore q) (hl : q = .load → t.li = 0) :
    Unseen x t := by
  subst hs ht
  obtain ⟨hd, hv, hc, hm, hr⟩ : t.desc = s.desc ∧ t.ev = s.ev ∧ t.cp = s.cp ∧ t.mi = s.mi ∧ t.err = s.err := by
    simpa [State.unspecified] using hu
  obtain ⟨ptab, psmp, pdis, pmac⟩ := hk
  exact {
    desc := fun q => hd ▸ h.desc (ptab q)
    loaded := fun q i hi => absurd hi (by simp [hl q])
    ev := fun q => hv ▸ h.ev (pdis q)
    cp := fun q => hc ▸ h.cp (psmp q)
    mi := fun q => hm ▸ h.mi (pmac q)
    err := fun q => hr ▸ h.err (he ▸ q) }

/-! The waits -/

/-- A wait commutes with other values in the registers if the way out of it does. -/
theorem delayCycle_under (ms : Nat) (leave : State → State) (s : State)
    (hl : ∀ t : State, leave (t.under x) = (leave t).under x) :
    delayCycle ms leave (s.under x) = (delayCycle ms leave s).under x := by
  rw [delayCycle_eq, delayCycle_eq, apply_ite (State.under x), ← hl]
  rfl

theorem waitPhase_under (ms : Nat) (leave next : State → State) (s : State)
    (hl : ∀ t : State, leave (t.under x) = (leave t).under x) (hn : ∀ t : State, next (t.under x) = (next t).under x) :
    waitPhase ms leave next (s.under x) = (waitPhase ms leave next s).under x := by
  unfold waitPhase
  rw [delayCycle_under ms leave s hl, hl, hn, apply_ite (State.under x)]

theorem Unseen.delayCycle_goto (h : Unseen x s) (ms : Nat) {p : Phase} (hp : s.ph.KnownBefore p) (hpl : p ≠ .load)
    (hsl : s.ph ≠ .load) : Unseen x (delayCycle ms (State.goto p) s) := by
  obtain ⟨d, tr, q, e, rfl | rfl, -⟩ := delayCycle_goto_frame ms p s <;> rw [e]
  · exact h.of_kept _ rfl rfl rfl rfl hp (fun c => absurd c hpl)
  · exact h.of_kept _ rfl rfl rfl rfl ⟨id, id, id, id⟩ (fun c => absurd c hsl)

/-! The load: the descriptors below `LI` are the loaded ones -/

/-- Two tables that agree below a record agree up to it once it is written. -/
theorem set_agree_of_agree_below {a b : Vector Instr Config.nSlots} {l i : Fin Config.nSlots} (d : Instr)
    (h : ∀ i : Fin Config.nSlots, i < l → a[i] = b[i]) (hi : i.val ≤ l.val) :
    (a.set l.val d l.isLt)[i] = (b.set l.val d l.isLt)[i] := by
  obtain he | hlt := Nat.eq_or_lt_of_le hi
  · simp [he]
  · simpa [Vector.getElem_set_ne _ _ (Nat.ne_of_gt hlt)] using h i hlt

theorem afterRecord_under (s : State) : afterRecord (s.under x) = (afterRecord s).under x := by
  rw [afterRecord, afterRecord, show (s.under x).li = s.li from rfl]
  cases slotAfter s.li <;> rfl

/-- After a record the tables agree up to it, and after the last one they are the same. -/
theorem Unseen.afterRecord (hd : ∀ i : Fin Config.nSlots, i.val ≤ s.li.val → x.desc[i] = s.desc[i])
    (he : s.cfgErr = true → x.err = s.err) : Unseen x (afterRecord s) := by
  obtain ⟨i, hi, h⟩ | ⟨hl, h⟩ := afterRecord_cases s <;> rw [h]
  · exact ⟨nofun, fun _ j hj => hd j (by have : j.val < i.val := hj; omega), nofun, nofun, nofun, he⟩
  · have hall : x.desc = s.desc := Vector.ext fun j hj => hd ⟨j, hj⟩ (by simp only [Config.nSlots] at hj ⊢; omega)
    exact ⟨fun _ => hall, nofun, nofun, nofun, nofun, he⟩

/-- The outcome of a record that decodes. -/
theorem loadDecoded_done {got : List Byte} {d : Instr} (hd : decode got = .done d) (s : State) :
    loadDecoded got s = afterRecord { s with desc := s.desc.set s.li.val d s.li.isLt, recBuf := [] } := by
  rw [loadDecoded, hd]

theorem loadDecoded_under (got : List Byte) (h : Unseen x s) (hp : s.ph = .load) :
    ∃ y, Unseen y (loadDecoded got s) ∧ loadDecoded got (s.under x) = (loadDecoded got s).under y := by
  cases hd : decode got with
  | done d =>
    refine ⟨{ x with desc := x.desc.set s.li.val d s.li.isLt }, ?_, ?_⟩
    · rw [loadDecoded_done hd]
      exact .afterRecord (fun i hi => set_agree_of_agree_below d (h.loaded hp) hi) h.err
    · rw [loadDecoded_done hd, loadDecoded_done hd, ← afterRecord_under]
      rfl
  | needMore =>
    simp only [loadDecoded, hd]
    exact ⟨x, ⟨h.desc, h.loaded, h.ev, h.cp, h.mi, h.err⟩, rfl⟩
  | badTag b =>
    simp only [loadDecoded, hd]
    exact ⟨{ x with err := _ }, ⟨nofun, nofun, nofun, nofun, nofun, fun _ => rfl⟩, rfl⟩
  | badMacroLength n =>
    simp only [loadDecoded, hd]
    exact ⟨{ x with err := _ }, ⟨nofun, nofun, nofun, nofun, nofun, fun _ => rfl⟩, rfl⟩

theorem phaseLoad_sameShown (h : Unseen x s) (hp : s.ph = .load) : SameShown (phaseLoad s) (phaseLoad (s.under x)) := by
  obtain ⟨-, e⟩ | ⟨-, e⟩ := storeRead_cases (loadAddress s) s
  · have e' : storeRead (loadAddress (s.under x)) (s.under x) = _ := e
    have hlog : Unseen x (s.log (.rb (loadAddress s) (s.store.read (loadAddress s)))) :=
      ⟨h.desc, h.loaded, h.ev, h.cp, h.mi, h.err⟩
    simp only [phaseLoad, e, e']
    exact loadDecoded_under _ hlog hp
  · have e' : storeRead (loadAddress (s.under x)) (s.under x) = _ := e
    simp only [phaseLoad, e, e']
    rfl

/-! The keys: `SCAN` writes `CP` and the event it leads to -/

theorem scanEdge_under (e : Edge) (hd : x.desc = s.desc) (hc : x.cp = s.cp) (he : s.cfgErr = true → x.err = s.err) :
    ∃ y, Unseen y (scanEdge e s) ∧ scanEdge e (s.under x) = (scanEdge e s).under y := by
  cases e with
  | rising => exact ⟨{ x with ev := .press }, ⟨fun _ => hd, nofun, fun _ => rfl, fun _ => hc, nofun, he⟩, rfl⟩
  | falling => exact ⟨{ x with ev := .release }, ⟨fun _ => hd, nofun, fun _ => rfl, fun _ => hc, nofun, he⟩, rfl⟩
  | hold => exact ⟨x, ⟨fun _ => hd, nofun, nofun, fun _ => hc, nofun, he⟩, rfl⟩
  | idle => exact ⟨x, ⟨fun _ => hd, nofun, nofun, fun _ => hc, nofun, he⟩, rfl⟩

theorem phaseScan_sameShown (h : Unseen x s) (hp : s.ph = .scan) : SameShown (phaseScan s) (phaseScan (s.under x)) := by
  rw [phaseScan, phaseScan, show (s.under x).sl = s.sl from rfl]
  cases keyOf s.sl with
  | some k =>
    exact scanEdge_under (x := { x with cp := pinAnswer s })
      (s := { takeSample (keyPin k) s with cp := pinAnswer s }) _ (h.desc (by rw [hp]; rfl)) rfl h.err
  | none => rfl

theorem phaseCommit_sameShown (h : Unseen x s) (hp : s.ph = .commit) :
    SameShown (phaseCommit s) (phaseCommit (s.under x)) := by
  have hc : x.cp = s.cp := h.cp (by rw [hp]; rfl)
  rw [phaseCommit, phaseCommit, show (s.under x).sl = s.sl from rfl]
  cases keyOf s.sl with
  | some k => exact ⟨x, h.of_kept .next rfl rfl hp rfl (by decide) nofun, by simp only [State.under, hc]⟩
  | none => rfl

theorem phaseNext_sameShown (h : Unseen x s) (hp : s.ph = .next) : SameShown (phaseNext s) (phaseNext (s.under x)) := by
  unfold phaseNext
  change SameShown _ (if _ : s.sl.val + 1 < Config.nKeys then _ else if s.sl.val + 1 = Config.nKeys then _ else _)
  split
  · exact ⟨x, h.of_kept .scan rfl rfl hp rfl (by decide) nofun, rfl⟩
  · split
    · exact ⟨x, h.of_kept .knobA rfl rfl hp rfl (by decide) nofun, rfl⟩
    · rfl

theorem phaseDone_sameShown (h : Unseen x s) (hp : s.ph = .done) :
    SameShown (.next (phaseDone s)) (.next (phaseDone (s.under x))) := by
  have hd : (s.under x).desc = s.desc := h.desc (by rw [hp]; rfl)
  have hv : (s.under x).ev = s.ev := h.ev (by rw [hp]; rfl)
  have hq : s.ph.KnownBefore (phaseAfterDispatch s.ev (kindOf s.descriptor)) ∧
      phaseAfterDispatch s.ev (kindOf s.descriptor) ≠ .load := by
    rw [hp]
    cases s.ev <;> cases kindOf s.descriptor <;> decide
  refine ⟨x, h.of_kept _ rfl rfl rfl rfl hq.1 (fun c => absurd c hq.2), ?_⟩
  unfold phaseDone State.descriptor
  rw [hv, hd]
  rfl

/-! The dispatch -/

/-- A dispatch stops by its phase, its event and the step `MI`, which are all written by then. -/
theorem dispatchStops_under (h : Unseen x s) (hp : s.ph.dispatching = true) (i : Instr) (f : Fault) :
    DispatchStops i (s.under x) f ↔ DispatchStops i s f := by
  have hv : (s.under x).ev = s.ev := h.ev hp
  have hdown : (s.ph = .mDown ∧ codeCount i < (s.under x).mi) ↔ (s.ph = .mDown ∧ codeCount i < s.mi) :=
    and_congr_right fun e => by rw [show (s.under x).mi = s.mi from h.mi (by rw [e]; rfl)]
  have hup : (s.ph = .mUp ∧ codeCount i ≤ (s.under x).mi) ↔ (s.ph = .mUp ∧ codeCount i ≤ s.mi) :=
    and_congr_right fun e => by rw [show (s.under x).mi = s.mi from h.mi (by rw [e]; rfl)]
  unfold DispatchStops
  rw [show (s.under x).ph = s.ph from rfl, hv, hdown, hup]

theorem macroAct_start (he : s.ev ≠ .release) : macroAct s = { s with mi := 0, ph := .mDown } := by
  unfold macroAct
  split
  · rfl
  · rfl
  · contradiction

theorem macroAct_release (he : s.ev = .release) : macroAct s = s.goto .done := by
  unfold macroAct
  rw [he]

/-- The start of a `MACRO` writes `MI`. -/
theorem macroAct_under (h : Unseen x s) (hp : s.ph = .act) :
    ∃ y, Unseen y (macroAct s) ∧ macroAct (s.under x) = (macroAct s).under y := by
  have hd : x.desc = s.desc := h.desc (by rw [hp]; rfl)
  have hv : x.ev = s.ev := h.ev (by rw [hp]; rfl)
  have hc : x.cp = s.cp := h.cp (by rw [hp]; rfl)
  by_cases he : s.ev = .release
  · rw [macroAct_release he, macroAct_release (s := s.under x) (hv.trans he)]
    exact ⟨x, h.of_kept .done rfl rfl hp rfl (by decide) nofun, rfl⟩
  · rw [macroAct_start he, macroAct_start (s := s.under x) fun e => he (hv.symm.trans e)]
    exact ⟨{ x with mi := 0 }, ⟨fun _ => hd, nofun, fun _ => hv, fun _ => hc, fun _ => rfl, h.err⟩, rfl⟩

/-- The last cycle of a key-up wait counts `MI` up, the others keep it. -/
theorem delayCycle_macroAdvance_under (ms : Nat) (h : Unseen x s) (hp : s.ph = .mW2) :
    ∃ y, Unseen y (delayCycle ms macroAdvance s) ∧
      delayCycle ms macroAdvance (s.under x) = (delayCycle ms macroAdvance s).under y := by
  have hd : x.desc = s.desc := h.desc (by rw [hp]; rfl)
  have hv : x.ev = s.ev := h.ev (by rw [hp]; rfl)
  have hc : x.cp = s.cp := h.cp (by rw [hp]; rfl)
  have hm : x.mi = s.mi := h.mi (by rw [hp]; rfl)
  rw [delayCycle_eq, delayCycle_eq]
  change ∃ y, _ ∧ (if ticksLeft ms s = 0 then _ else _) = _
  split
  · exact ⟨{ x with mi := x.mi + 1 },
      ⟨fun _ => hd, nofun, fun _ => hv, fun _ => hc, fun _ => congrArg (· + 1) hm, h.err⟩, rfl⟩
  · exact ⟨x, h.of_kept .mW2 rfl rfl hp hp (by decide) nofun, rfl⟩

/-- A cycle that goes on does so under the other values. -/
theorem pulseDispatch_under {down up : PortEvent} (h : Unseen x s) (hn : pulseDispatch down up s = .next t) :
    ∃ y, Unseen y t ∧ pulseDispatch down up (s.under x) = .next (t.under y) := by
  have hph : (s.under x).ph = s.ph := rfl
  have hev (hp : s.ph.dispatching = true) : (s.under x).ev = s.ev := h.ev hp
  obtain ⟨hp, he, rfl⟩ | ⟨hp, he, rfl⟩ | ⟨hp, he, rfl⟩ | ⟨hp, he, rfl⟩ := pulseDispatch_next hn <;>
    rw [pulseDispatch, hph, hev (by rw [hp]; rfl), hp, he]
  · exact ⟨x, h.of_kept .done rfl rfl hp rfl (by decide) nofun, rfl⟩
  · exact ⟨x, h.of_kept .done rfl rfl hp rfl (by decide) nofun, rfl⟩
  · exact ⟨x, h.of_kept .act2 rfl rfl hp rfl (by decide) nofun, rfl⟩
  · exact ⟨x, h.of_kept .done rfl rfl hp rfl (by decide) nofun, rfl⟩

theorem execMacroSeq_under {codes : List Byte} (h : Unseen x s) (hn : execMacroSeq codes s = .next t) :
    ∃ y, Unseen y t ∧ execMacroSeq codes (s.under x) = .next (t.under y) := by
  have hph : (s.under x).ph = s.ph := rfl
  have hmi (hp : s.ph.inMacro = true) : (s.under x).mi = s.mi := h.mi hp
  obtain ⟨hp, rfl⟩ | ⟨hp, c, hc, rfl⟩ | ⟨hp, hm, rfl⟩ | ⟨hp, rfl⟩ | ⟨hp, c, hc, rfl⟩ | ⟨hp, rfl⟩ :=
    execMacroSeq_next hn <;> simp only [execMacroSeq, hph, hp]
  · obtain ⟨y, hy, e⟩ := macroAct_under h hp
    exact ⟨y, hy, congrArg _ e⟩
  · simp only [macroDown, macroCode, hmi (by rw [hp]; rfl), hc]
    exact ⟨x, h.of_kept .mW1 rfl rfl hp rfl (by decide) nofun, rfl⟩
  · simp only [macroDown, macroCode, hmi (by rw [hp]; rfl), hm, List.getElem?_length, if_true]
    exact ⟨x, h.of_kept .done rfl rfl hp rfl (by decide) nofun, rfl⟩
  · rw [delayCycle_under Config.tStep (State.goto .mUp) s fun _ => rfl]
    exact ⟨x, h.delayCycle_goto _ (by rw [hp]; decide) nofun (by rw [hp]; nofun), rfl⟩
  · simp only [macroUp, macroCode, hmi (by rw [hp]; rfl), hc]
    exact ⟨x, h.of_kept .mW2 rfl rfl hp rfl (by decide) nofun, rfl⟩
  · obtain ⟨y, hy, e⟩ := delayCycle_macroAdvance_under Config.tStep h hp
    exact ⟨y, hy, congrArg _ e⟩

theorem exec_under {i : Instr} (h : Unseen x s) (hn : exec i s = .next t) :
    ∃ y, Unseen y t ∧ exec i (s.under x) = .next (t.under y) := by
  cases i with
  | kbd m c => exact pulseDispatch_under h hn
  | cons k => exact pulseDispatch_under h hn
  | macroSeq codes => exact execMacroSeq_under h hn

theorem exec_sameShown (i : Instr) (h : Unseen x s) (hp : s.ph.dispatching = true) :
    SameShown (exec i s) (exec i (s.under x)) := by
  cases he : exec i s with
  | next t =>
    obtain ⟨y, hy, e⟩ := exec_under h he
    rw [e]
    exact sameShown_next hy
  | fault f =>
    have hf := (dispatchStops_under h hp i f).2 ((exec_fault_iff i s f).1 he)
    rw [(exec_fault_iff i _ f).2 hf]
    rfl
  | refused r => exact absurd he (exec_ne_refused i s r)

/-! The other phases write none of the registers, but for the event of a detent -/

theorem phaseGate_sameShown (h : Unseen x s) (hp : s.ph = .gate) :
    SameShown (.next (phaseGate s)) (.next (phaseGate (s.under x))) := by
  refine ⟨x, h.of_kept (if pinAnswer s then .bootReq else .load) rfl rfl hp rfl ?_ fun _ => rfl, rfl⟩
  split <;> decide

theorem phaseKnobA_sameShown (h : Unseen x s) (hp : s.ph = .knobA) :
    SameShown (.next (phaseKnobA s)) (.next (phaseKnobA (s.under x))) := by
  cases hb : pinAnswer s with
  | true => exact ⟨x, h.of_kept .knobB rfl rfl hp (by simp [phaseKnobA_eq, hb]) (by decide) nofun, rfl⟩
  | false => exact ⟨x, h.of_kept .feed rfl rfl hp (by simp [phaseKnobA_eq, hb]) (by decide) nofun, rfl⟩

theorem phaseKnobB_sameShown (h : Unseen x s) (hp : s.ph = .knobB) :
    SameShown (.next (phaseKnobB s)) (.next (phaseKnobB (s.under x))) :=
  ⟨{ x with ev := .trigger }, ⟨fun _ => h.desc (by rw [hp]; rfl), nofun, fun _ => rfl, fun _ => h.cp (by rw [hp]; rfl),
    nofun, h.err⟩, rfl⟩

theorem Unseen.phaseKWait (h : Unseen x s) {p : Phase} (hp : s.ph = p) (hk : p.KnownBefore .kWait) :
    Unseen x (phaseKWait s) := by
  cases hb : pinAnswer s with
  | true => exact h.of_kept .kWait rfl rfl hp (by simp [phaseKWait_eq, hb]) hk nofun
  | false => exact h.of_kept .feed rfl rfl hp (by simp [phaseKWait_eq, hb]) hk nofun

theorem phaseKSettle_sameShown (h : Unseen x s) (hp : s.ph = .kSettle) :
    SameShown (.next (phaseKSettle s)) (.next (phaseKSettle (s.under x))) := by
  refine ⟨x, ?_, waitPhase_under _ _ _ s (fun _ => rfl) fun _ => rfl⟩
  obtain ⟨-, e⟩ | ⟨-, e⟩ := waitPhase_cases Config.tSettle (State.goto .kWait) phaseKWait s <;> rw [phaseKSettle, e]
  · have hw : Unseen x (s.goto .kWait) := h.of_kept .kWait rfl rfl hp rfl (by decide) nofun
    exact hw.phaseKWait (p := .kWait) rfl (by decide)
  · exact h.delayCycle_goto _ (by rw [hp]; decide) nofun (by rw [hp]; nofun)

theorem phaseEndDly_sameShown (h : Unseen x s) (hp : s.ph = .endDly) :
    SameShown (.next (phaseEndDly s)) (.next (phaseEndDly (s.under x))) := by
  refine ⟨x, ?_, waitPhase_under _ _ _ s (fun _ => rfl) fun _ => rfl⟩
  obtain ⟨-, e⟩ | ⟨-, e⟩ := waitPhase_cases Config.tLoop (State.goto .wdr) phaseWdr s <;> rw [phaseEndDly, e]
  · exact h.of_kept .scan rfl rfl hp rfl (by decide) nofun
  · exact h.delayCycle_goto _ (by rw [hp]; decide) nofun (by rw [hp]; nofun)

theorem phaseCool_sameShown (h : Unseen x s) (hp : s.ph = .cool) :
    SameShown (.next (phaseCool s)) (.next (phaseCool (s.under x))) :=
  ⟨x, h.delayCycle_goto _ (by rw [hp]; decide) nofun (by rw [hp]; nofun), delayCycle_under _ _ s fun _ => rfl⟩

/-! One cycle, one step, and a run -/

theorem Phase.tableKnown_of_dispatching {p : Phase} (h : p.dispatching = true) : p.tableKnown = true := by
  cases p <;> simp_all [Phase.dispatching, Phase.tableKnown]

theorem dispatch_sameShown (h : Unseen x s) (hp : s.ph.dispatching = true) (hd : s.ph ≠ .done) :
    SameShown (phaseCycle s) (phaseCycle (s.under x)) := by
  have hdesc : (s.under x).descriptor = s.descriptor := congrArg (·[s.sl]) (h.desc (Phase.tableKnown_of_dispatching hp))
  rw [phaseCycle_dispatch hp hd, phaseCycle_dispatch (s := s.under x) hp hd, hdesc]
  exact exec_sameShown _ h hp

theorem phaseCycle_sameShown (h : Unseen x s) : SameShown (phaseCycle s) (phaseCycle (s.under x)) := by
  have hph : (s.under x).ph = s.ph := rfl
  by_cases hd : s.ph.dispatching = true ∧ s.ph ≠ .done
  · exact dispatch_sameShown h hd.1 hd.2
  unfold phaseCycle
  cases hp : s.ph <;> simp only [hph, hp]
  case gate => exact phaseGate_sameShown h hp
  case bootReq => exact ⟨x, h.of_kept .boot rfl rfl hp rfl (by decide) nofun, rfl⟩
  case boot => exact sameShown_next h
  case load => exact phaseLoad_sameShown h hp
  case fault => exact sameShown_next h
  case scan => exact phaseScan_sameShown h hp
  case done => exact phaseDone_sameShown h hp
  case cool => exact phaseCool_sameShown h hp
  case commit => exact phaseCommit_sameShown h hp
  case next => exact phaseNext_sameShown h hp
  case knobA => exact phaseKnobA_sameShown h hp
  case knobB => exact phaseKnobB_sameShown h hp
  case kSettle => exact phaseKSettle_sameShown h hp
  case kWait => exact ⟨x, h.phaseKWait hp (by decide), rfl⟩
  case feed => exact ⟨x, h.of_kept .endDly rfl rfl hp rfl (by decide) nofun, rfl⟩
  case endDly => exact phaseEndDly_sameShown h hp
  case wdr => exact ⟨x, h.of_kept .scan rfl rfl hp rfl (by decide) nofun, rfl⟩
  all_goals exact absurd ⟨by rw [hp]; rfl, by rw [hp]; nofun⟩ hd

/-- A reset leaves nothing to differ: it gives every register the model's own value. -/
theorem step_sameShown (h : Unseen x s) : SameShown (step s) (step (s.under x)) := by
  cases hr : rstNow s with
  | true =>
    rw [step_reset hr, step_reset (s := s.under x) hr]
    exact ⟨_, unseen_unspecified _, rfl⟩
  | false =>
    rw [step_low hr, step_low (s := s.under x) hr]
    exact phaseCycle_sameShown (s := passEdge s) ⟨h.desc, h.loaded, h.ev, h.cp, h.mi, h.err⟩

theorem runFor_sameShown (k : Nat) (h : Unseen x s) : SameShown (runFor k s) (runFor k (s.under x)) := by
  induction k generalizing s x with
  | zero => exact sameShown_next h
  | succ k ih =>
    have hs := step_sameShown h
    cases hn : step s <;> cases hu : step (s.under x) <;> rw [hn, hu] at hs
    case next.next t u =>
      obtain ⟨y, hy, rfl⟩ := hs
      rw [runFor_succ hn, runFor_succ hu]
      exact ih hy
    case fault.fault f g =>
      rw [runFor_succ_fault hn, runFor_succ_fault hu]
      exact hs
    all_goals exact hs.elim

/-- At reset, at `GATE` with the error flag down, none of the registers is written. -/
theorem unseen_of_gate (hp : s.ph = .gate) (he : s.cfgErr = false) (x : Unspecified) : Unseen x s := by
  constructor <;> simp [hp, he, Phase.tableKnown, Phase.sampleKnown, Phase.dispatching, Phase.inMacro]

theorem errPort_under (h : Unseen x s) : errPort (s.under x) = errPort s := by
  unfold errPort
  change (if s.cfgErr then some x.err else none) = _
  split
  · rw [h.err ‹_›]
  · rfl

/-- Settles O53: from reset two runs stay in states that differ only in a register not yet written. -/
theorem unspecifiedResetValuesAreNeverSeen : Obligations.UnspecifiedResetValuesAreNeverSeen := by
  intro m pins rst desc ev cp mi err k
  have h : SameShown (runFor k { State.reset with store := m, pinScript := pins, rstScript := rst })
      (runFor k { State.reset with
        store := m, pinScript := pins, rstScript := rst, desc := desc, ev := ev, cp := cp, mi := mi, err := err }) :=
    runFor_sameShown k (unseen_of_gate rfl rfl ⟨desc, ev, cp, mi, err⟩)
  generalize runFor k { State.reset with store := m, pinScript := pins, rstScript := rst } = a at h ⊢
  generalize runFor k { State.reset with
    store := m, pinScript := pins, rstScript := rst, desc := desc, ev := ev, cp := cp, mi := mi, err := err } = b at h ⊢
  cases a <;> cases b
  case next.next t u =>
    obtain ⟨x, hx, rfl⟩ := h
    exact ⟨rfl, rfl, rfl, rfl, rfl, (errPort_under hx).symm⟩
  all_goals exact h

end Sys2Proof.Machine
end

section
/-! SUPPORT. Every cycle keeps the store (O49). -/

namespace Sys2Proof.Machine

variable {s t : State}

/-! The waits keep it if the ways out of them do -/

theorem delayCycle_store (ms : Nat) {leave : State → State} (s : State)
    (hl : ∀ u : State, (leave u).store = u.store) : (delayCycle ms leave s).store = s.store := by
  rw [delayCycle_eq]
  split
  · exact hl _
  · rfl

theorem waitPhase_store (ms : Nat) {leave next : State → State} (s : State)
    (hl : ∀ u : State, (leave u).store = u.store) (hn : ∀ u : State, (next u).store = u.store) :
    (waitPhase ms leave next s).store = s.store := by
  obtain ⟨-, h⟩ | ⟨-, h⟩ := waitPhase_cases ms leave next s <;> rw [h]
  · rw [hn, hl]
  · exact delayCycle_store ms s hl

/-! The load reads it, and a key's edge does not touch it -/

theorem loadDecoded_store (got : List Byte) (s : State) : (loadDecoded got s).store = s.store := by
  obtain ⟨-, h⟩ | ⟨d, i, -, -, h⟩ | ⟨d, -, -, h⟩ | ⟨b, -, h⟩ | ⟨n, -, h⟩ := loadDecoded_cases got s <;> simp [h]

theorem scanEdge_store (e : Edge) (s : State) : (scanEdge e s).store = s.store := by cases e <;> rfl

/-! The dispatch of one descriptor -/

theorem macroAct_store (s : State) : (macroAct s).store = s.store := by
  unfold macroAct
  split <;> rfl

theorem pulseDispatch_store {down up : PortEvent} (h : pulseDispatch down up s = .next t) : t.store = s.store := by
  obtain ⟨-, -, rfl⟩ | ⟨-, -, rfl⟩ | ⟨-, -, rfl⟩ | ⟨-, -, rfl⟩ := pulseDispatch_next h <;> rfl

theorem execMacroSeq_store {codes : List Byte} (h : execMacroSeq codes s = .next t) : t.store = s.store := by
  obtain ⟨-, rfl⟩ | ⟨-, c, -, rfl⟩ | ⟨-, -, rfl⟩ | ⟨-, rfl⟩ | ⟨-, c, -, rfl⟩ | ⟨-, rfl⟩ := execMacroSeq_next h
  · exact macroAct_store s
  · rfl
  · rfl
  · exact delayCycle_store _ s fun _ => rfl
  · rfl
  · exact delayCycle_store _ s fun _ => rfl

theorem exec_store {i : Instr} (h : exec i s = .next t) : t.store = s.store := by
  cases i with
  | kbd m c => exact pulseDispatch_store h
  | cons k => exact pulseDispatch_store h
  | macroSeq codes => exact execMacroSeq_store h

/-! One cycle and one step -/

theorem phaseCycle_store (h : phaseCycle s = .next t) : t.store = s.store := by
  obtain ⟨-, rfl⟩ | ⟨-, rfl⟩ | ⟨-, rfl⟩ | ⟨-, -, rfl⟩ | ⟨-, k, -, rfl⟩ | ⟨-, -, he⟩ | ⟨-, rfl⟩ | ⟨-, rfl⟩ |
    ⟨-, k, -, rfl⟩ | ⟨-, i, -, -, rfl⟩ | ⟨-, -, rfl⟩ | ⟨-, rfl⟩ | ⟨-, rfl⟩ | ⟨-, rfl⟩ | ⟨-, rfl⟩ | ⟨-, rfl⟩ |
    ⟨-, rfl⟩ | ⟨-, rfl⟩ := phaseCycle_cases h
  · rfl
  · rfl
  · rfl
  · exact loadDecoded_store _ _
  · exact scanEdge_store _ _
  · exact exec_store he
  · rfl
  · exact delayCycle_store _ s fun _ => rfl
  · rfl
  · rfl
  · rfl
  · rfl
  · rfl
  · exact waitPhase_store _ s (fun _ => rfl) fun _ => rfl
  · rfl
  · rfl
  · exact waitPhase_store _ s (fun _ => rfl) fun _ => rfl
  · rfl

/-- Settles O49: a reset keeps the store, and so does every cycle. -/
theorem storeIsNeverWritten : Obligations.StoreIsNeverWritten := by
  intro s t h
  obtain ⟨-, rfl⟩ | ⟨-, hc⟩ := step_cases h
  · exact takeReset_store _
  · exact (phaseCycle_store hc).trans (passEdge_store s)

end Sys2Proof.Machine
end

section
/-! SUPPORT. Records (O1 to O5): which bytes decide a record, and that encoding undoes decoding and decoding encoding. -/

namespace Sys2Proof

/-! The tags (30_encoding.md R75, R80) -/

theorem decode_tagMacro (rest : List Byte) : decode (Config.tagMacro :: rest) = decodeMacro rest := rfl

theorem ne_tag_of_three_le {t : Byte} (h : 3 ≤ t.toNat) : t ≠ 0 ∧ t ≠ 1 ∧ t ≠ 2 := by
  refine ⟨?_, ?_, ?_⟩ <;> rintro rfl <;> exact absurd h (by decide)

theorem decode_eq_badTag {t : Byte} (h : 3 ≤ t.toNat) (rest : List Byte) : decode (t :: rest) = .badTag t := by
  obtain ⟨h0, h1, h2⟩ := ne_tag_of_three_le h
  rw [decode, if_neg h0, if_neg h1, if_neg h2]

/-! Bytes after the deciding ones (30_encoding.md R82) -/

theorem decodeKeyboard_append {pre : List Byte} (rest : List Byte) (h : decodeKeyboard pre ≠ .needMore) :
    decodeKeyboard (pre ++ rest) = decodeKeyboard pre := by
  match pre with
  | [] => exact absurd rfl h
  | [_] => exact absurd rfl h
  | _ :: _ :: _ => rfl

theorem decodeConsumer_append {pre : List Byte} (rest : List Byte) (h : decodeConsumer pre ≠ .needMore) :
    decodeConsumer (pre ++ rest) = decodeConsumer pre := by
  match pre with
  | [] => exact absurd rfl h
  | _ :: _ => rfl

theorem decodeMacro_append {pre : List Byte} (rest : List Byte) (h : decodeMacro pre ≠ .needMore) :
    decodeMacro (pre ++ rest) = decodeMacro pre := by
  match pre with
  | [] => exact absurd rfl h
  | n :: codes =>
    obtain ⟨hn, e⟩ | ⟨-, -, e⟩ | ⟨hn, hlen, e⟩ := decodeMacro_cons n codes
    · rw [e, List.cons_append, decodeMacro, if_pos hn]
    · exact absurd e h
    · rw [e, List.cons_append, decodeMacro, if_neg (Nat.not_lt.2 hn),
        if_neg (by rw [List.length_append]; omega), List.take_append_of_le_length hlen]

theorem decode_append {pre : List Byte} (rest : List Byte) (h : decode pre ≠ .needMore) :
    decode (pre ++ rest) = decode pre := by
  match pre with
  | [] => exact absurd rfl h
  | t :: bytes =>
    obtain ⟨rfl, e⟩ | ⟨rfl, e⟩ | ⟨rfl, e⟩ | ⟨ht, e⟩ := decode_cons t bytes
    · exact decodeKeyboard_append rest (e ▸ h)
    · exact decodeConsumer_append rest (e ▸ h)
    · exact decodeMacro_append rest (e ▸ h)
    · rw [e]
      exact decode_eq_badTag ht _

/-- Settles O4, by the bytes each record kind reads. -/
theorem unusedBytesNeverMatter : Obligations.UnusedBytesNeverMatter := fun _ rest => decode_append rest

/-! Decoding what was encoded (30_encoding.md R84) -/

theorem decode_encodeMeaningful {i : Instr} (h : i.wellFormed = true) : decode (encodeMeaningful i) = .done i := by
  cases i with
  | kbd m c => rfl
  | cons k =>
    simp only [Instr.wellFormed, decide_eq_true_eq] at h
    have hk : (k.truncate 8).zeroExtend 16 = k := by bv_omega
    exact congrArg (fun c => Decoded.done (.cons c)) hk
  | macroSeq codes =>
    simp only [Instr.wellFormed, decide_eq_true_eq, Config.macroMax] at h
    have hn : (BitVec.ofNat 8 codes.length).toNat = codes.length := by
      rw [BitVec.toNat_ofNat]
      omega
    rw [encodeMeaningful, decode_tagMacro]
    obtain ⟨hlt, -⟩ | ⟨-, hlt, -⟩ | ⟨-, -, e⟩ := decodeMacro_cons (BitVec.ofNat 8 codes.length) codes
    · omega
    · omega
    · rw [e, hn, List.take_length]

theorem decode_encode {i : Instr} (h : i.wellFormed = true) : decode (encode i) = .done i := by
  have hd := decode_encodeMeaningful h
  rw [encode, decode_append _ (by rw [hd]; nofun), hd]

/-! A record as one number (30_encoding.md R72) -/

theorem recordNumber_lt (bytes : List Byte) : recordNumber bytes < 2 ^ (8 * bytes.length) := by
  induction bytes with
  | nil => simp [recordNumber]
  | cons b bytes ih =>
    rw [recordNumber, List.length_cons, Nat.mul_succ, Nat.add_comm, pow_add]
    have := b.isLt
    omega

theorem recordByte_recordNumber_zero (b : Byte) (bytes : List Byte) : recordByte (recordNumber (b :: bytes)) 0 = b := by
  apply BitVec.eq_of_toNat_eq
  simp only [recordByte, recordNumber, Nat.mul_zero, Nat.shiftRight_zero, BitVec.toNat_ofNat]
  have := b.isLt
  omega

theorem recordByte_recordNumber_succ (b : Byte) (bytes : List Byte) (k : Nat) :
    recordByte (recordNumber (b :: bytes)) (k + 1) = recordByte (recordNumber bytes) k := by
  have hshift : recordNumber (b :: bytes) >>> 8 = recordNumber bytes := by
    rw [recordNumber, Nat.shiftRight_eq_div_pow]
    have := b.isLt
    omega
  rw [recordByte, recordByte, Nat.mul_succ, Nat.add_comm, Nat.shiftRight_add, hshift]

theorem map_recordByte_recordNumber (bytes : List Byte) :
    (List.range bytes.length).map (recordByte (recordNumber bytes)) = bytes := by
  induction bytes with
  | nil => rfl
  | cons b bytes ih =>
    rw [List.length_cons, List.range_succ_eq_map, List.map_cons, recordByte_recordNumber_zero, List.map_map]
    congr 1
    exact (List.map_congr_left fun k _ => recordByte_recordNumber_succ b bytes k).trans ih

/-- A whole record is read back from its number. -/
theorem recordBytes_recordNumber {bytes : List Byte} (h : bytes.length = Config.recBytes) :
    recordBytes (8 * Config.recBytes) (recordNumber bytes) = bytes := by
  rw [recordBytes, ← h, Nat.mod_eq_of_lt (recordNumber_lt bytes), map_recordByte_recordNumber]

/-- Settles O1: the meaningful bytes decode to the instruction, the zeros after them do not matter, and the number
keeps all twelve bytes. -/
theorem decodeOfEncodeIsTheInstruction : Obligations.DecodeOfEncodeIsTheInstruction := by
  intro i h
  refine ⟨length_encode h, decode_encode h, ?_⟩
  rw [decodeTableWord, recordBytes_recordNumber (length_encode h), decode_encode h]

/-! Encoding what was decoded (30_encoding.md R86) -/

/-- Bytes that decode begin with the meaningful bytes of what they decode to. -/
theorem encodeMeaningful_prefix_of_decode_done {bytes : List Byte} {i : Instr} (h : decode bytes = .done i) :
    encodeMeaningful i <+: bytes := by
  match bytes with
  | [] => cases h
  | t :: rest =>
    obtain ⟨rfl, e⟩ | ⟨rfl, e⟩ | ⟨rfl, e⟩ | ⟨-, e⟩ := decode_cons t rest <;> rw [e] at h
    · match rest with
      | [] => cases h
      | [_] => cases h
      | m :: c :: tail =>
        cases h
        exact List.prefix_append [0, m, c] tail
    · match rest with
      | [] => cases h
      | k :: tail =>
        cases h
        have hk : (k.zeroExtend 16).truncate 8 = k := by bv_omega
        rw [encodeMeaningful, hk]
        exact List.prefix_append [1, k] tail
    · match rest with
      | [] => cases h
      | n :: codes =>
        obtain ⟨-, e'⟩ | ⟨-, -, e'⟩ | ⟨-, hlen, e'⟩ := decodeMacro_cons n codes <;> rw [e'] at h <;> cases h
        rw [encodeMeaningful, List.length_take, Nat.min_eq_left hlen, BitVec.ofNat_toNat, BitVec.setWidth_eq]
        exact (List.prefix_append_right_inj [2, n]).2 (List.take_prefix _ _)
    · cases h

/-- Settles O2: what a record decodes to is well formed and its meaningful bytes begin the record. -/
theorem reencodingReproducesMeaningfulBytes : Obligations.ReencodingReproducesMeaningfulBytes := by
  intro bytes i _ h
  exact ⟨wellFormed_of_decode_done h, (List.prefix_iff_eq_take.1 (encodeMeaningful_prefix_of_decode_done h)).symm⟩

/-! The outcome of each record (30_encoding.md R83) -/

/-- Settles O3, by the tag and, for a Macro record, by its length byte: ten code bytes are enough for every legal
length. -/
theorem everyRecordHasOneOutcome : Obligations.EveryRecordHasOneOutcome := by
  intro t n c rest hrest
  obtain ⟨rfl, e⟩ | ⟨rfl, e⟩ | ⟨rfl, e⟩ | ⟨ht, e⟩ := decode_cons t (n :: c :: rest)
  · rfl
  · rw [e, if_neg (by decide), if_pos rfl, BitVec.ofNat_toNat]
    rfl
  · rw [e, if_neg (by decide), if_neg (by decide), if_pos rfl]
    obtain ⟨hn, e'⟩ | ⟨hn, hlt, -⟩ | ⟨hn, -, e'⟩ := decodeMacro_cons n (c :: rest)
    · rw [e', if_neg (Nat.not_le.2 hn)]
    · rw [List.length_cons] at hlt
      omega
    · rw [e', if_pos hn]
  · obtain ⟨h0, h1, h2⟩ := ne_tag_of_three_le ht
    rw [e, if_neg h0, if_neg h1, if_neg h2]

/-- Settles O5, by running the decoder on the five words. -/
theorem specWordsDecodeAsWritten : Obligations.SpecWordsDecodeAsWritten :=
  ⟨by decide, by decide, by decide, by decide, by decide⟩

end Sys2Proof
end

section
/-! SUPPORT. The load (O11 to O15): one cycle reads one byte, so a record is read byte by byte and decided by its last
meaningful byte, and the table is loaded record by record. -/

namespace Sys2Proof

/-- A record stays open until its last meaningful byte is read (30_encoding.md R82): what fewer bytes decoded to would
have all its meaningful bytes among them. -/
theorem decode_take_encodeMeaningful {d : Instr} (hd : d.wellFormed = true) {k : Nat}
    (hk : k < (encodeMeaningful d).length) : decode ((encodeMeaningful d).take k) = .needMore := by
  by_contra hne
  have hdone : decode ((encodeMeaningful d).take k) = .done d := by
    rw [← decode_append ((encodeMeaningful d).drop k) hne, List.take_append_drop, decode_encodeMeaningful hd]
  have hlen := (encodeMeaningful_prefix_of_decode_done hdone).length_le
  rw [List.length_take] at hlen
  omega

theorem two_le_length_encodeMeaningful (d : Instr) : 2 ≤ (encodeMeaningful d).length := by
  cases d <;> simp [encodeMeaningful]

end Sys2Proof

namespace Sys2Proof.Machine

variable {s : State}

theorem record_lt_or_last (i : Fin Config.nSlots) : i.val < 5 ∨ i.val = 5 :=
  Nat.lt_or_eq_of_le (Nat.le_of_lt_succ i.isLt)

/-! The outcomes of the bytes read (40_config_decoder.md R91 to R96) -/

theorem loadDecoded_needMore {got : List Byte} (h : decode got = .needMore) (s : State) :
    loadDecoded got s = { s with recBuf := got } := by
  rw [loadDecoded, h]

/-- A finished record before the last one leads to the next record (45_main_loop.md R180). -/
theorem loadDecoded_done_of_lt {got : List Byte} {d : Instr} (hd : decode got = .done d) (h : s.li.val < 5) :
    loadDecoded got s = { s with
      desc := s.desc.set s.li.val d s.li.isLt
      recBuf := []
      li := ⟨s.li.val + 1, Nat.succ_lt_succ h⟩
      ph := .load } := by
  rw [loadDecoded_done hd]
  obtain ⟨i, hi, e⟩ | ⟨hl, -⟩ := afterRecord_cases { s with desc := s.desc.set s.li.val d s.li.isLt, recBuf := [] }
  · rw [e, show i = ⟨s.li.val + 1, Nat.succ_lt_succ h⟩ from Fin.ext hi]
  · exact absurd hl h.ne

/-- The last record leads to the first iteration (45_main_loop.md R180). -/
theorem loadDecoded_done_of_last {got : List Byte} {d : Instr} (hd : decode got = .done d) (h : s.li.val = 5) :
    loadDecoded got s = { s with
      desc := s.desc.set s.li.val d s.li.isLt
      recBuf := []
      sl := 0
      sig := #v[false, false, false]
      ph := .scan } := by
  rw [loadDecoded_done hd]
  obtain ⟨i, hi, -⟩ | ⟨-, e⟩ := afterRecord_cases { s with desc := s.desc.set s.li.val d s.li.isLt, recBuf := [] }
  · have hlast : i.val < 6 := i.isLt
    rw [hi, h] at hlast
    exact absurd hlast (lt_irrefl 6)
  · exact e

theorem loadDecoded_badTag {got : List Byte} {tag : Byte} (h : decode got = .badTag tag) (hb : s.recBuf = []) :
    loadDecoded got s = { s with ph := .fault, cfgErr := true, err := ⟨1, BitVec.ofNat 3 s.li.val, tag, 0⟩ } := by
  rw [loadDecoded, h]
  simp only [raiseConfigDecodeError, ← hb]
  rfl

theorem loadDecoded_badMacroLength {got : List Byte} {n : Byte} (h : decode got = .badMacroLength n)
    (hb : s.recBuf = []) :
    loadDecoded got s = { s with ph := .fault, cfgErr := true, err := ⟨2, BitVec.ofNat 3 s.li.val, 2, n⟩ } := by
  rw [loadDecoded, h]
  simp only [raiseConfigDecodeError, ← hb]
  rfl

/-- The load writes nothing but the table, the error and its own place (R91). -/
theorem loadDecoded_frame (got : List Byte) (s : State) :
    (loadDecoded got s).trace = s.trace ∧ (loadDecoded got s).last = s.last ∧ (loadDecoded got s).fb = s.fb ∧
      (loadDecoded got s).ev = s.ev ∧ (loadDecoded got s).cp = s.cp ∧ (loadDecoded got s).mi = s.mi ∧
      (loadDecoded got s).dly = s.dly ∧ (loadDecoded got s).pinScript = s.pinScript := by
  obtain ⟨-, e⟩ | ⟨d, i, -, -, e⟩ | ⟨d, -, -, e⟩ | ⟨b, -, e⟩ | ⟨n, -, e⟩ := loadDecoded_cases got s <;> simp [e]

/-- Every outcome replaces the record buffer. -/
theorem loadDecoded_recBuf (got buf : List Byte) (s : State) :
    loadDecoded got { s with recBuf := buf } = loadDecoded got s := by
  rw [loadDecoded, loadDecoded]
  cases decode got <;> rfl

/-! One cycle -/

/-- A record's bytes lie in the store (20_memory.md R50, R51). -/
theorem loadAddress_lt (h : s.recBuf.length < Config.recBytes) : loadAddress s < Config.cfgBytes := by
  have hli : s.li.val < 6 := s.li.isLt
  simp only [loadAddress, recordBase, Config.recBytes, Config.cfgBytes] at h ⊢
  omega

theorem step_load {v : Byte} (hr : rstNow s = false) (hp : s.ph = .load) (ha : loadAddress s < Config.cfgBytes)
    (hv : s.store.read (loadAddress s) = v) :
    step s = .next (loadDecoded (s.recBuf ++ [v]) ((passEdge s).log (.rb (loadAddress s) v))) := by
  have hread : storeRead (loadAddress (passEdge s)) (passEdge s) = .ok v := (storeRead_of_lt ha).trans (congrArg _ hv)
  rw [step_low hr, phaseCycle_load (s := passEdge s) hp, phaseLoad, hread]
  rfl

/-- Settles O11, by the outcome of the bytes read. -/
theorem loadReadsOneByteACycle : Obligations.LoadReadsOneByteACycle := by
  intro s v hr hp ha hv
  refine ⟨_, step_load hr hp ha hv, ?_⟩
  set u := (passEdge s).log (.rb (loadAddress s) v)
  obtain ⟨htrace, hlast, hfb, hev, hcp, hmi, hdly, hpin⟩ := loadDecoded_frame (s.recBuf ++ [v]) u
  refine ⟨htrace, hlast, hfb, loadDecoded_store _ u, hev, hcp, hmi, hdly, hpin, fun hd => ?_, fun d hd => ?_⟩
  · rw [loadDecoded_needMore hd]
    exact ⟨hp, rfl, rfl, rfl, rfl, rfl⟩
  · obtain hl | hl : u.li.val < 5 ∨ u.li.val = 5 := record_lt_or_last u.li
    · rw [loadDecoded_done_of_lt hd hl]
      exact ⟨rfl, rfl, fun _ => ⟨rfl, rfl, rfl, rfl⟩, fun h => absurd h hl.ne⟩
    · rw [loadDecoded_done_of_last hd hl]
      exact ⟨rfl, rfl, fun h => absurd hl h.ne, fun _ => ⟨rfl, rfl, rfl, rfl⟩⟩

/-! The cycles of one record -/

/-- The reads of bytes from an address on join the trace (R91). -/
def State.logReads (a : Nat) (bytes : List Byte) (s : State) : State :=
  { s with trace := s.trace ++ readsTrace a bytes }

theorem logReads_cons (a : Nat) (v : Byte) (rest : List Byte) (s : State) :
    s.logReads a (v :: rest) = (s.log (.rb a v)).logReads (a + 1) rest := by
  simp [State.logReads, State.log, readsTrace]

/-- Bytes of record `LI` that leave it open until the last of them are read one a cycle, in ascending address order,
and then lead to their outcome. -/
theorem run_reads {bytes : List Byte} (hr : NoReset s) (hp : s.ph = .load) (hne : bytes ≠ [])
    (hlen : s.recBuf.length + bytes.length ≤ Config.recBytes)
    (hopen : ∀ k, k < bytes.length → decode (s.recBuf ++ bytes.take k) = .needMore)
    (hstore : ∀ k v, bytes[k]? = some v → s.store.read (loadAddress s + k) = v) :
    runFor bytes.length s = .next (loadDecoded (s.recBuf ++ bytes) (s.logReads (loadAddress s) bytes)) := by
  induction bytes generalizing s with
  | nil => exact absurd rfl hne
  | cons v rest ih =>
    rw [List.length_cons] at hlen
    have hs := step_load (rstNow_of_noReset hr) hp (loadAddress_lt (by omega)) (hstore 0 v rfl)
    rw [passEdge_eq s hr] at hs
    by_cases hrest : rest = []
    · subst hrest
      exact runFor_one hs
    · have hv : decode (s.recBuf ++ [v]) = .needMore := hopen 1 (by simpa [List.length_pos_iff] using hrest)
      rw [loadDecoded_needMore hv] at hs
      set t := { s.log (.rb (loadAddress s) v) with recBuf := s.recBuf ++ [v] }
      have haddr : loadAddress t = loadAddress s + 1 := by
        simp only [loadAddress, t, log_li, List.length_append, List.length_singleton, Nat.add_assoc]
      have hlen' : t.recBuf.length + rest.length ≤ Config.recBytes := by
        rw [List.length_append, List.length_singleton]
        omega
      have hopen' (k : Nat) (hk : k < rest.length) : decode (t.recBuf ++ rest.take k) = .needMore := by
        rw [List.append_assoc]
        exact hopen (k + 1) (Nat.succ_lt_succ hk)
      have hstore' (k : Nat) (w : Byte) (hw : rest[k]? = some w) : t.store.read (loadAddress t + k) = w := by
        rw [haddr, Nat.add_assoc, Nat.add_comm 1]
        exact hstore (k + 1) w hw
      calc runFor (rest.length + 1) s
          = runFor rest.length t := runFor_succ hs
        _ = .next (loadDecoded (t.recBuf ++ rest) (t.logReads (loadAddress t) rest)) :=
          ih hr hp hrest hlen' hopen' hstore'
        _ = .next (loadDecoded (s.recBuf ++ v :: rest) (s.logReads (loadAddress s) (v :: rest))) := by
          rw [haddr, logReads_cons, List.append_cons]
          exact congrArg _ (loadDecoded_recBuf _ t.recBuf
            ((s.log (.rb (loadAddress s) v)).logReads (loadAddress s + 1) rest))

theorem loadAddress_of_empty (hb : s.recBuf = []) : loadAddress s = recordBase s.li := by
  rw [loadAddress, hb, List.length_nil, Nat.add_zero]

/-- `run_reads` for a record from its first byte. -/
theorem run_record {bytes : List Byte} (hr : NoReset s) (hp : s.ph = .load) (hb : s.recBuf = []) (hne : bytes ≠ [])
    (hlen : bytes.length ≤ Config.recBytes) (hopen : ∀ k, k < bytes.length → decode (bytes.take k) = .needMore)
    (hstore : ∀ k v, bytes[k]? = some v → s.store.read (recordBase s.li + k) = v) :
    runFor bytes.length s = .next (loadDecoded bytes (s.logReads (recordBase s.li) bytes)) := by
  have hrun := run_reads (bytes := bytes) hr hp hne (by rwa [hb, List.length_nil, Nat.zero_add]) (by rwa [hb])
    (by rwa [loadAddress_of_empty hb])
  rwa [loadAddress_of_empty hb, hb] at hrun

/-! Records that raise `ConfigDecodeError` (60_exceptions.md R202, R203) -/

/-- Settles O12: the tag byte alone decides. -/
theorem badTagTakesConfigDecodeError : Obligations.BadTagTakesConfigDecodeError := by
  intro s tag hr hp hb htag hread
  have ha : loadAddress s < Config.cfgBytes := loadAddress_lt (by simp [hb])
  have hs := step_load (v := tag) (rstNow_of_noReset hr) hp ha (by rwa [loadAddress_of_empty hb])
  rwa [passEdge_eq s hr, loadAddress_of_empty hb, hb, List.nil_append,
    loadDecoded_badTag (s := s.log _) (decode_eq_badTag htag []) hb] at hs

/-- Settles O13: the record is open after its tag and decided by its length byte. -/
theorem badMacroLengthTakesConfigDecodeError : Obligations.BadMacroLengthTakesConfigDecodeError := by
  intro s n hr hp hb hn htag hlen
  have hd : decode [2, n] = .badMacroLength n := by
    rw [decode_tagMacro, decodeMacro, if_pos (show Config.macroMax < n.toNat from hn)]
  have hlength : [2, n].length ≤ Config.recBytes := by simp [Config.recBytes]
  have hrun := run_record hr hp hb (List.cons_ne_nil _ _) hlength (fun | 0, _ => rfl | 1, _ => rfl)
    (fun | 0, _, rfl => htag | 1, _, rfl => hlen)
  rwa [loadDecoded_badMacroLength (s := s.logReads _ _) hd hb] at hrun

/-! Legal records (40_config_decoder.md R92 to R94) -/

theorem length_readsTrace (a : Nat) (bytes : List Byte) : (readsTrace a bytes).length = bytes.length := by
  induction bytes generalizing a with
  | nil => rfl
  | cons v rest ih => rw [readsTrace, List.length_cons, List.length_cons, ih]

theorem length_recordTrace (i : Fin Config.nSlots) (d : Instr) :
    (recordTrace i d).length = (encodeMeaningful d).length := length_readsTrace ..

section LegalRecord

variable {d : Instr} (hr : NoReset s) (hp : s.ph = .load) (hb : s.recBuf = []) (hd : d.wellFormed = true)
  (hm : HoldsRecord s.store s.li d)
include hr hp hb hd hm

theorem run_legal_record :
    runFor (recordTrace s.li d).length s =
      .next (loadDecoded (encodeMeaningful d) (s.logReads (recordBase s.li) (encodeMeaningful d))) := by
  have hne : encodeMeaningful d ≠ [] := by cases d <;> exact List.cons_ne_nil _ _
  rw [length_recordTrace]
  exact run_record hr hp hb hne (length_encodeMeaningful_le hd) (fun _ => decode_take_encodeMeaningful hd) hm

theorem run_legal_record_of_lt (h : s.li.val < 5) :
    runFor (recordTrace s.li d).length s = .next { s with
      desc := s.desc.set s.li.val d s.li.isLt
      li := ⟨s.li.val + 1, Nat.succ_lt_succ h⟩
      trace := s.trace ++ recordTrace s.li d } := by
  rw [run_legal_record hr hp hb hd hm,
    loadDecoded_done_of_lt (s := s.logReads _ _) (decode_encodeMeaningful hd) h, ← hp, ← hb]
  rfl

theorem run_legal_record_of_last (h : s.li.val = 5) :
    runFor (recordTrace s.li d).length s = .next { s with
      desc := s.desc.set s.li.val d s.li.isLt
      sl := 0
      sig := #v[false, false, false]
      ph := .scan
      trace := s.trace ++ recordTrace s.li d } := by
  rw [run_legal_record hr hp hb hd hm,
    loadDecoded_done_of_last (s := s.logReads _ _) (decode_encodeMeaningful hd) h, ← hb]
  rfl

end LegalRecord

/-- Settles O14, by the record's place in the table. -/
theorem legalRecordIsDecodedByItsReads : Obligations.LegalRecordIsDecodedByItsReads := by
  intro s d hr hp hb hd hm
  refine (congrArg (runFor · s) (a₂ := (recordTrace s.li d).length) ?_).trans ?_
  · rw [length_recordTrace]
    cases d with
    | kbd m c => rfl
    | cons k => rfl
    | macroSeq codes => exact Nat.add_comm ..
  · obtain hl | hl : s.li.val < 5 ∨ s.li.val = 5 := record_lt_or_last s.li
    · simp only [run_legal_record_of_lt hr hp hb hd hm hl, hl, hp, if_true, dif_pos]
    · simp only [run_legal_record_of_last hr hp hb hd hm hl, hl, lt_irrefl, if_false, dif_neg, not_false_eq_true]

/-! The whole table (40_config_decoder.md R97), record by record -/

/-- The table when the records below `n` are loaded. -/
def tableBelow (tab old : Vector Instr Config.nSlots) (n : Nat) : Vector Instr Config.nSlots :=
  Vector.ofFn fun j => if j.val < n then tab[j] else old[j]

theorem tableBelow_zero (tab old : Vector Instr Config.nSlots) : tableBelow tab old 0 = old := by
  ext j hj
  simp [tableBelow]

theorem tableBelow_all (tab old : Vector Instr Config.nSlots) : tableBelow tab old Config.nSlots = tab := by
  ext j hj
  simp [tableBelow]

theorem tableBelow_set (tab old : Vector Instr Config.nSlots) (i : Fin Config.nSlots) :
    (tableBelow tab old i.val).set i.val tab[i] i.isLt = tableBelow tab old (i.val + 1) := by
  ext j hj
  simp only [tableBelow, Vector.getElem_set, Vector.getElem_ofFn]
  by_cases hij : i.val = j
  · subst hij
    simp
  · have hlt : j < i.val + 1 ↔ j < i.val := by omega
    simp only [hij, hlt, if_false]

/-- The reads of the records below `n`. -/
def traceBelow (tab : Vector Instr Config.nSlots) : Nat → List PortEvent
  | 0 => []
  | n + 1 => traceBelow tab n ++ if h : n < Config.nSlots then recordTrace ⟨n, h⟩ tab[n] else []

theorem traceBelow_all (tab : Vector Instr Config.nSlots) : traceBelow tab Config.nSlots = loadTrace tab := rfl

theorem traceBelow_succ (tab : Vector Instr Config.nSlots) (i : Fin Config.nSlots) :
    traceBelow tab (i.val + 1) = traceBelow tab i.val ++ recordTrace i tab[i] := by
  rw [traceBelow, dif_pos i.isLt]
  rfl

/-- Each record takes 2 to 12 reads. -/
theorem length_traceBelow_bounds {tab : Vector Instr Config.nSlots}
    (h : ∀ i : Fin Config.nSlots, tab[i].wellFormed = true) (n : Nat) (hn : n ≤ Config.nSlots) :
    2 * n ≤ (traceBelow tab n).length ∧ (traceBelow tab n).length ≤ Config.recBytes * n := by
  induction n with
  | zero => exact ⟨Nat.le_refl 0, Nat.le_refl 0⟩
  | succ n ih =>
    obtain ⟨hmin, hmax⟩ := ih (Nat.le_of_succ_le hn)
    have hsucc : traceBelow tab (n + 1) = traceBelow tab n ++ recordTrace ⟨n, hn⟩ tab[n] := traceBelow_succ tab ⟨n, hn⟩
    have htwo := two_le_length_encodeMeaningful tab[n]
    have hrec : (encodeMeaningful tab[n]).length ≤ Config.recBytes := length_encodeMeaningful_le (h ⟨n, hn⟩)
    rw [hsucc, List.length_append, length_recordTrace]
    simp only [Config.recBytes] at hmax hrec ⊢
    omega

/-- The engine about to read record `i`, the records before it loaded. -/
def State.loadedBelow (tab : Vector Instr Config.nSlots) (i : Fin Config.nSlots) (s : State) : State :=
  { s with desc := tableBelow tab s.desc i.val, li := i, trace := s.trace ++ traceBelow tab i.val }

/-- The records before a record are loaded by their reads. -/
theorem run_loadedBelow {tab : Vector Instr Config.nSlots} (hr : NoReset s) (hp : s.ph = .load) (hli : s.li = 0)
    (hb : s.recBuf = [])
    (hm : ∀ i : Fin Config.nSlots, tab[i].wellFormed = true ∧ HoldsRecord s.store i tab[i]) (i : Fin Config.nSlots) :
    runFor (traceBelow tab i.val).length s = .next (s.loadedBelow tab i) := by
  obtain ⟨n, hn⟩ := i
  induction n with
  | zero => simp [State.loadedBelow, tableBelow_zero, traceBelow, ← hli]
  | succ n ih =>
    have hn' : n < Config.nSlots := Nat.lt_of_succ_lt hn
    obtain ⟨hwf, hrec⟩ := hm ⟨n, hn'⟩
    have hlast := run_legal_record_of_lt (s := s.loadedBelow tab ⟨n, hn'⟩) hr hp hb hwf hrec (Nat.lt_of_succ_lt_succ hn)
    rw [traceBelow_succ tab ⟨n, hn'⟩, List.length_append, runFor_add (ih hn')]
    refine hlast.trans ?_
    simp only [State.loadedBelow, tableBelow_set tab s.desc ⟨n, hn'⟩, traceBelow_succ tab ⟨n, hn'⟩, List.append_assoc]

/-- Settles O15: five records lead to the last one, which leads to the first iteration. -/
theorem legalStoreLoadsTheWholeTable : Obligations.LegalStoreLoadsTheWholeTable := by
  intro s tab hr hp hli hb hm
  obtain ⟨hmin, hmax⟩ := length_traceBelow_bounds (fun i => (hm i).1) Config.nSlots (Nat.le_refl _)
  rw [traceBelow_all] at hmin hmax
  refine ⟨hmin, hmax, ?_⟩
  obtain ⟨hwf, hrec⟩ := hm 5
  have hbefore := run_loadedBelow hr hp hli hb hm 5
  have hlast := run_legal_record_of_last (s := s.loadedBelow tab 5) hr hp hb hwf hrec rfl
  have htrace := (traceBelow_all tab).symm.trans (traceBelow_succ tab 5)
  have hdesc : tableBelow tab s.desc ((5 : Fin Config.nSlots).val + 1) = tab := tableBelow_all tab s.desc
  rw [htrace, List.length_append, runFor_add hbefore]
  refine hlast.trans ?_
  simp only [State.loadedBelow, tableBelow_set tab s.desc 5, hdesc, List.append_assoc]

end Sys2Proof.Machine
end

section
/-! SUPPORT. A dispatch (R140 to R153) from its first cycle to `DONE`: one equation for each cycle, and the run of the
phases, which is the program's trace. -/

namespace Sys2Proof.Machine

variable {s t u : State}

/-! Runs of some number of steps -/

/-- Some number of steps leads from `s` to `t`. -/
def Reaches (s t : State) : Prop := ∃ k, runFor k s = .next t

theorem Reaches.of_step (h : step s = .next t) : Reaches s t := ⟨1, runFor_one h⟩

theorem Reaches.trans (h : Reaches s t) (h' : Reaches t u) : Reaches s u := by
  obtain ⟨j, hj⟩ := h
  obtain ⟨k, hk⟩ := h'
  exact ⟨j + k, (runFor_add hj).trans hk⟩

/-- A run past a step. -/
theorem Reaches.head (h : step s = .next t) (h' : Reaches t u) : Reaches s u := (Reaches.of_step h).trans h'

/-- A wait of at least one millisecond leaves its event and its phase, with `DLY` again 0. -/
theorem Reaches.wait {ms : Nat} {leave : State → State} (hms : 0 < ms) (h0 : s.dly = 0)
    (hstep : ∀ d tr,
      step { s with dly := d, trace := tr } = .next (delayCycle ms leave { s with dly := d, trace := tr })) :
    Reaches s (leave { s with trace := s.trace ++ [.dly ms] }) :=
  ⟨_, by simpa only [h0] using run_delay s hstep h0 hms⟩

/-! The cycles of `KBD` and `CONS` (R182) -/

section Pulse

variable {down up : PortEvent}

theorem pulseDispatch_press (hp : s.ph = .act) (he : s.ev = .press) :
    pulseDispatch down up s = .next ((s.log down).goto .done) := by
  simp [pulseDispatch, hp, he]

theorem pulseDispatch_release (hp : s.ph = .act) (he : s.ev = .release) :
    pulseDispatch down up s = .next ((s.log up).goto .done) := by
  simp [pulseDispatch, hp, he]

theorem pulseDispatch_trigger (hp : s.ph = .act) (he : s.ev = .trigger) :
    pulseDispatch down up s = .next ((s.log down).goto .act2) := by
  simp [pulseDispatch, hp, he]

theorem pulseDispatch_act2 (hp : s.ph = .act2) (he : s.ev = .trigger) :
    pulseDispatch down up s = .next ((s.log up).goto .done) := by
  simp [pulseDispatch, hp, he]

end Pulse

/-! The cycles of `MACRO` (R182, R183) -/

section MacroCycles

variable {codes : List Byte} {c : Byte}

theorem execMacroSeq_act (hp : s.ph = .act) : execMacroSeq codes s = .next (macroAct s) := by
  simp [execMacroSeq, hp]

theorem execMacroSeq_mDown_code (hp : s.ph = .mDown) (hc : codes[s.mi]? = some c) :
    execMacroSeq codes s = .next ((s.log (.kd 0 c)).goto .mW1) := by
  simp [execMacroSeq, macroDown, hp, hc]

theorem execMacroSeq_mDown_end (hp : s.ph = .mDown) (hm : s.mi = codes.length) :
    execMacroSeq codes s = .next (s.goto .done) := by
  simp [execMacroSeq, macroDown, hp, hm]

theorem execMacroSeq_mW1 (hp : s.ph = .mW1) :
    execMacroSeq codes s = .next (delayCycle Config.tStep (State.goto .mUp) s) := by
  simp [execMacroSeq, hp]

theorem execMacroSeq_mUp (hp : s.ph = .mUp) (hc : codes[s.mi]? = some c) :
    execMacroSeq codes s = .next ((s.log (.ku 0 c)).goto .mW2) := by
  simp [execMacroSeq, macroUp, hp, hc]

theorem execMacroSeq_mW2 (hp : s.ph = .mW2) :
    execMacroSeq codes s = .next (delayCycle Config.tStep macroAdvance s) := by
  simp [execMacroSeq, hp]

end MacroCycles

/-! The run of a `KBD` or `CONS` -/

theorem step_dispatch {p : Phase} (hr : NoReset s) (hp : s.ph = p) (hd : p.dispatching = true) (hn : p ≠ .done) :
    step s = exec s.descriptor s := by
  subst hp
  exact (step_noReset hr).trans (phaseCycle_dispatch hd hn)

theorem KeyEvent.eq_press_or_release_or_trigger (ev : KeyEvent) : ev = .press ∨ ev = .release ∨ ev = .trigger := by
  cases ev <;> simp

/-- The events of a dispatch of one down and one up transaction (R182). -/
def pulseTrace (down up : PortEvent) : KeyEvent → List PortEvent
  | .press => [down]
  | .release => [up]
  | .trigger => [down, up]

theorem dispatchTrace_kbd (m c : Byte) (ev : KeyEvent) :
    dispatchTrace (.kbd m c) ev = pulseTrace (.kd m c) (.ku m c) ev := by
  cases ev <;> rfl

theorem dispatchTrace_cons (k : Code16) (ev : KeyEvent) :
    dispatchTrace (.cons k) ev = pulseTrace (.cd k) (.cu k) ev := by
  cases ev <;> rfl

/-- The phases run a `KBD` or `CONS`. -/
theorem reaches_done_of_pulse {down up : PortEvent} (hr : NoReset s) (hp : s.ph = .act)
    (hexec : ∀ t, exec s.descriptor t = pulseDispatch down up t) :
    Reaches s { s with ph := .done, trace := s.trace ++ pulseTrace down up s.ev } := by
  have hact : step s = pulseDispatch down up s := (step_dispatch hr hp rfl (by decide)).trans (hexec s)
  obtain he | he | he := s.ev.eq_press_or_release_or_trigger
  · rw [show pulseTrace down up s.ev = [down] by rw [he]; rfl]
    exact .of_step (hact.trans (pulseDispatch_press hp he))
  · rw [show pulseTrace down up s.ev = [up] by rw [he]; rfl]
    exact .of_step (hact.trans (pulseDispatch_release hp he))
  · rw [show pulseTrace down up s.ev = [down] ++ [up] by rw [he]; rfl, ← List.append_assoc]
    set t := (s.log down).goto .act2
    have hact2 : step t = pulseDispatch down up t :=
      (step_dispatch (p := .act2) (s := t) hr rfl rfl (by decide)).trans (hexec t)
    exact .head (hact.trans (pulseDispatch_trigger hp he)) (.of_step (hact2.trans (pulseDispatch_act2 rfl he)))

/-! The run of a macro -/

section MacroRun

variable {codes : List Byte} {c : Byte} (hr : NoReset s) (hd : s.descriptor = .macroSeq codes)
include hr hd

theorem step_macro {p : Phase} (hp : s.ph = p) (hdisp : p.dispatching = true) (hn : p ≠ .done) :
    step s = execMacroSeq codes s := by
  rw [step_dispatch hr hp hdisp hn, hd]
  rfl

theorem reaches_mW1 (hp : s.ph = .mDown) (hc : codes[s.mi]? = some c) :
    Reaches s { s with ph := .mW1, trace := s.trace ++ [.kd 0 c] } :=
  .of_step ((step_macro hr hd hp rfl (by decide)).trans (execMacroSeq_mDown_code hp hc))

theorem reaches_mUp (hp : s.ph = .mW1) (h0 : s.dly = 0) :
    Reaches s { s with ph := .mUp, trace := s.trace ++ [.dly Config.tStep] } :=
  .wait (leave := State.goto .mUp) (by decide) h0 fun d tr =>
    (step_macro (s := { s with dly := d, trace := tr }) hr hd hp rfl (by decide)).trans (execMacroSeq_mW1 hp)

theorem reaches_mW2 (hp : s.ph = .mUp) (hc : codes[s.mi]? = some c) :
    Reaches s { s with ph := .mW2, trace := s.trace ++ [.ku 0 c] } :=
  .of_step ((step_macro hr hd hp rfl (by decide)).trans (execMacroSeq_mUp hp hc))

theorem reaches_mDown (hp : s.ph = .mW2) (h0 : s.dly = 0) :
    Reaches s { s with ph := .mDown, mi := s.mi + 1, trace := s.trace ++ [.dly Config.tStep] } :=
  .wait (leave := macroAdvance) (by decide) h0 fun d tr =>
    (step_macro (s := { s with dly := d, trace := tr }) hr hd hp rfl (by decide)).trans (execMacroSeq_mW2 hp)

/-- One step of a macro (R146) in the sequencer's phases (R183): key-down, wait, key-up, wait. -/
theorem reaches_macroStep (hp : s.ph = .mDown) (h0 : s.dly = 0) (hc : codes[s.mi]? = some c) :
    Reaches s { s with mi := s.mi + 1, trace := s.trace ++ macroStepTrace c } := by
  have hdown := reaches_mW1 hr hd hp hc
  set s₁ : State := { s with ph := .mW1, trace := s.trace ++ [.kd 0 c] }
  have hwait := reaches_mUp (s := s₁) hr hd rfl h0
  set s₂ : State := { s₁ with ph := .mUp, trace := s₁.trace ++ [.dly Config.tStep] }
  have hup := reaches_mW2 (s := s₂) hr hd rfl hc
  set s₃ : State := { s₂ with ph := .mW2, trace := s₂.trace ++ [.ku 0 c] }
  have hlast := reaches_mDown (s := s₃) hr hd rfl h0
  have htrace : s.trace ++ macroStepTrace c = s₃.trace ++ [.dly Config.tStep] := by
    simp [s₃, s₂, s₁, macroStepTrace, delayTrace]
  rw [htrace, hp]
  exact hdown.trans (hwait.trans (hup.trans hlast))

/-- The steps of a macro from one of them on, in order, to the end (R151). -/
theorem reaches_done_of_mDown {pre rest : List Byte} (hcodes : codes = pre ++ rest) (hp : s.ph = .mDown)
    (h0 : s.dly = 0) (hm : s.mi = pre.length) :
    Reaches s { s with ph := .done, mi := codes.length, trace := s.trace ++ macroTrace rest } := by
  induction rest generalizing s pre with
  | nil =>
    have hend : s.mi = codes.length := by rw [hm, hcodes, List.append_nil]
    have hstep := (step_macro hr hd hp rfl (by decide)).trans (execMacroSeq_mDown_end hp hend)
    rw [← hend, macroTrace, List.flatMap_nil, List.append_nil]
    exact .of_step hstep
  | cons c rest ih =>
    have hc : codes[s.mi]? = some c := by simp [hcodes, hm]
    have hfirst := reaches_macroStep hr hd hp h0 hc
    set t : State := { s with mi := s.mi + 1, trace := s.trace ++ macroStepTrace c }
    have hrest := ih (s := t) (pre := pre ++ [c]) hr hd (by simp [hcodes]) hp h0 (by simp [t, hm])
    have htrace : s.trace ++ macroTrace (c :: rest) = t.trace ++ macroTrace rest := by simp [t, macroTrace]
    rw [htrace]
    exact hfirst.trans hrest

/-- The phases run a `MACRO`: the whole of it but on a Release (R151 to R153). -/
theorem reaches_done_of_macro (hp : s.ph = .act) (h0 : s.dly = 0) :
    ∃ m, Reaches s { s with ph := .done, mi := m, trace := s.trace ++ dispatchTrace (.macroSeq codes) s.ev } := by
  have hact : step s = .next (macroAct s) :=
    (step_macro hr hd hp rfl (by decide)).trans (execMacroSeq_act hp)
  by_cases he : s.ev = .release
  · rw [macroAct_release he] at hact
    refine ⟨s.mi, ?_⟩
    rw [show dispatchTrace (.macroSeq codes) s.ev = [] by rw [he]; rfl, List.append_nil]
    exact .of_step hact
  · rw [macroAct_start he] at hact
    have htrace : dispatchTrace (.macroSeq codes) s.ev = macroTrace codes := by
      obtain h | h | h := s.ev.eq_press_or_release_or_trigger
      · rw [h]; rfl
      · exact absurd h he
      · rw [h]; rfl
    have hrun := reaches_done_of_mDown (s := { s with mi := 0, ph := .mDown }) (pre := []) hr hd rfl rfl h0 rfl
    rw [htrace]
    exact ⟨_, .head hact hrun⟩

end MacroRun

/-! The run of any dispatch -/

/-- From `ACT` the phases run the whole dispatch of the current descriptor (R140). -/
theorem reaches_done (hr : NoReset s) (hp : s.ph = .act) (h0 : s.dly = 0) :
    ∃ m, Reaches s { s with ph := .done, mi := m, trace := s.trace ++ dispatchTrace s.descriptor s.ev } := by
  cases hd : s.descriptor with
  | kbd m c =>
    rw [dispatchTrace_kbd]
    exact ⟨s.mi, reaches_done_of_pulse hr hp fun t => by rw [hd]; rfl⟩
  | cons k =>
    rw [dispatchTrace_cons]
    exact ⟨s.mi, reaches_done_of_pulse hr hp fun t => by rw [hd]; rfl⟩
  | macroSeq codes => exact reaches_done_of_macro hr hd hp h0

end Sys2Proof.Machine
end

section
/-! SUPPORT. The key state machine (O28, O29, O38): the phases around a dispatch, and `OnSample` by what the sample is
against `LAST`. -/

namespace Sys2Proof.Machine

variable {s : State} {k : Fin Config.nKeys}

/-! The phases of a key slot as one update each (45_main_loop.md R181, R184) -/

/-- What the sample leads to, by whether it is `LAST` (R106, R181). -/
theorem scanEdge_edgeOf (last p : Bool) (s : State) : scanEdge (edgeOf last p) s = { s with
    ph := if p = last then .next else .act
    ev := if p = last then s.ev else if p then .press else .release
    sig := if p = true ∧ last = true then signalled s.sl s.sig else s.sig } := by
  cases last <;> cases p <;> rfl

theorem signalled_keySlot (hk : s.sl = keySlot k) : signalled s.sl s.sig = s.sig.setIfInBounds k.val true := by
  rw [hk, signalled_eq]
  rfl

theorem phaseScan_eq (hk : s.sl = keySlot k) : phaseScan s = .next { s with
    ph := if pinAnswer s = s.last[k] then .next else .act
    cp := pinAnswer s
    ev := if pinAnswer s = s.last[k] then s.ev else if pinAnswer s then .press else .release
    sig := if pinAnswer s = true ∧ s.last[k] = true then s.sig.setIfInBounds k.val true else s.sig
    pinScript := s.pinScript.tail
    pinDraws := if s.pinScript.isEmpty then s.pinDraws + 1 else s.pinDraws
    trace := s.trace ++ [.sp (keyPin k) (pinAnswer s)] } := by
  have hkey : keyOf s.sl = some k := by rw [hk, keyOf_keySlot]
  simp only [phaseScan, hkey, scanEdge_edgeOf, ← signalled_keySlot hk]
  rfl

theorem phaseCommit_eq (hk : s.sl = keySlot k) : phaseCommit s = .next { s with
    ph := .next
    last := s.last.set k.val s.cp k.isLt
    sig := if s.cp then s.sig.setIfInBounds k.val true else s.sig } := by
  have hkey : keyOf s.sl = some k := by rw [hk, keyOf_keySlot]
  simp only [phaseCommit, hkey, signalled_keySlot hk]

/-- The event of an edge by the sample that shows it (R107, R108). -/
def edgeEvent (p : Bool) : KeyEvent := if p then .press else .release

/-! `SCAN` with an answer of the script (R181) -/

section Scan

variable {p : Bool} {rest : List Bool} (hr : NoReset s) (hp : s.ph = .scan) (hk : s.sl = keySlot k)
  (hpin : s.pinScript = p :: rest)
include hr hp hk hpin

theorem step_scan_edge (h : p ≠ s.last[k]) : step s = .next { s with
    ph := .act
    cp := p
    ev := edgeEvent p
    pinScript := rest
    trace := s.trace ++ [.sp (keyPin k) p] } := by
  have hboth : ¬ (p = true ∧ s.last[k] = true) := fun ⟨hp, hl⟩ => h (hp.trans hl.symm)
  simp only [step_noReset hr, phaseCycle_scan hp, phaseScan_eq hk, pinAnswer_cons s p rest hpin, if_neg h, if_neg hboth,
    edgeEvent, hpin, List.tail_cons, List.isEmpty_cons, Bool.false_eq_true, if_false]

theorem step_scan_same (h : p = s.last[k]) : step s = .next { s with
    ph := .next
    cp := p
    sig := if p then s.sig.setIfInBounds k.val true else s.sig
    pinScript := rest
    trace := s.trace ++ [.sp (keyPin k) p] } := by
  simp only [step_noReset hr, phaseCycle_scan hp, phaseScan_eq hk, pinAnswer_cons s p rest hpin, ← h, and_self,
    if_true, hpin, List.tail_cons, List.isEmpty_cons, Bool.false_eq_true, if_false]

end Scan

/-! From the end of a dispatch to `NEXT` (R184) -/

/-- `COOL` waits its 50 ms (R109). -/
theorem reaches_commit_of_cool (hr : NoReset s) (hp : s.ph = .cool) (h0 : s.dly = 0) :
    Reaches s { s with ph := .commit, trace := s.trace ++ [.dly Config.tCooldown] } :=
  .wait (leave := State.goto .commit) (by decide) h0 fun d tr =>
    (step_noReset (s := { s with dly := d, trace := tr }) hr).trans (phaseCycle_cool hp)

/-- What follows the dispatch of a key's edge before the edge is stored: the cooldown of a Macro's release (R109). -/
def cooldownTrace (d : Instr) (ev : KeyEvent) : List PortEvent :=
  if ev = .release ∧ kindOf d = .macroKind then [.dly Config.tCooldown] else []

theorem phaseAfterDispatch_eq_commit {ev : KeyEvent} {kind : Kind} (he : ev ≠ .trigger)
    (h : ¬ (ev = .release ∧ kind = .macroKind)) : phaseAfterDispatch ev kind = .commit := by
  cases ev <;> cases kind <;> simp_all [phaseAfterDispatch]

/-- From the end of a key's dispatch the phases come to store the edge. -/
theorem reaches_commit (hr : NoReset s) (hp : s.ph = .done) (h0 : s.dly = 0) (he : s.ev ≠ .trigger) :
    Reaches s { s with ph := .commit, trace := s.trace ++ cooldownTrace s.descriptor s.ev } := by
  have hdone : step s = .next (phaseDone s) := (step_noReset hr).trans (phaseCycle_done hp)
  rw [phaseDone] at hdone
  by_cases h : s.ev = .release ∧ kindOf s.descriptor = .macroKind
  · obtain ⟨hev, hkind⟩ := h
    rw [hev, hkind] at hdone
    rw [cooldownTrace, if_pos ⟨hev, hkind⟩]
    exact .head hdone (reaches_commit_of_cool (s := s.goto .cool) hr rfl h0)
  · rw [phaseAfterDispatch_eq_commit he h] at hdone
    rw [cooldownTrace, if_neg h, List.append_nil]
    exact .of_step hdone

theorem step_commit (hr : NoReset s) (hp : s.ph = .commit) (hk : s.sl = keySlot k) : step s = .next { s with
    ph := .next
    last := s.last.set k.val s.cp k.isLt
    sig := if s.cp then s.sig.setIfInBounds k.val true else s.sig } := by
  rw [step_noReset hr, phaseCycle_commit hp, phaseCommit_eq hk]

/-! `OnSample` by what the sample is against `LAST` (41_key_state_machine.md R115) -/

theorem onSample_same (d : Instr) (p : Bool) : onSample d p p = ⟨[], p, p⟩ := by
  simp [onSample]

theorem onSample_edge (d : Instr) {last p : Bool} (h : p ≠ last) :
    onSample d last p = ⟨dispatchTrace d (edgeEvent p) ++ cooldownTrace d (edgeEvent p), p, p⟩ := by
  cases p <;> simp [onSample, h, edgeEvent, cooldownTrace, delayTrace]

theorem onSample_last (d : Instr) (last p : Bool) : (onSample d last p).last = p := by
  by_cases h : p = last
  · rw [h, onSample_same]
  · rw [onSample_edge d h]

theorem onSample_signal (d : Instr) (last p : Bool) : (onSample d last p).signal = p := by
  by_cases h : p = last
  · rw [h, onSample_same]
  · rw [onSample_edge d h]

/-- Settles O29, by the edge. -/
theorem onSampleByEdge : Obligations.OnSampleByEdge := by
  intro d
  refine ⟨?_, ?_, onSample_same d true, onSample_same d false⟩
  · rw [onSample_edge d (by decide)]
    simp [edgeEvent, cooldownTrace]
  · rw [onSample_edge d (by decide)]
    simp [edgeEvent, cooldownTrace]

/-! The phases of a key slot from `SCAN` to `NEXT` -/

section KeyTurn

variable {p : Bool} {rest : List Bool} (hr : NoReset s) (hp : s.ph = .scan) (hk : s.sl = keySlot k)
  (hpin : s.pinScript = p :: rest)
include hr hp hk hpin

/-- An edge: the dispatch, a cooldown for a Macro's release, and the new `LAST` bit. -/
theorem reaches_next_of_edge (h0 : s.dly = 0) (h : p ≠ s.last[k]) :
    ∃ m, Reaches s { s with
      ph := .next
      cp := p
      ev := edgeEvent p
      mi := m
      last := s.last.set k.val p k.isLt
      sig := if p then s.sig.setIfInBounds k.val true else s.sig
      pinScript := rest
      trace := s.trace ++ .sp (keyPin k) p :: (onSample s.descriptor s.last[k] p).events } := by
  have hscan := step_scan_edge hr hp hk hpin h
  set s₁ : State := { s with
    ph := .act, cp := p, ev := edgeEvent p, pinScript := rest, trace := s.trace ++ [.sp (keyPin k) p] }
  obtain ⟨m, hdispatch⟩ := reaches_done (s := s₁) hr rfl h0
  set s₂ : State := { s₁ with ph := .done, mi := m, trace := s₁.trace ++ dispatchTrace s₁.descriptor s₁.ev }
  have hev : s₂.ev ≠ .trigger := by cases p <;> exact nofun
  have hcommit := reaches_commit (s := s₂) hr rfl h0 hev
  set s₃ : State := { s₂ with ph := .commit, trace := s₂.trace ++ cooldownTrace s₂.descriptor s₂.ev }
  have hlast := step_commit (s := s₃) hr rfl hk
  have htrace : s.trace ++ .sp (keyPin k) p :: (onSample s.descriptor s.last[k] p).events = s₃.trace := by
    rw [onSample_edge _ h, List.append_cons, ← List.append_assoc]
    rfl
  rw [htrace]
  exact ⟨m, .head hscan (hdispatch.trans (hcommit.trans (.of_step hlast)))⟩

/-- No edge: a held key signals again, and `LAST` keeps its bit. -/
theorem reaches_next_of_same (h : p = s.last[k]) :
    Reaches s { s with
      ph := .next
      cp := p
      last := s.last.set k.val p k.isLt
      sig := if p then s.sig.setIfInBounds k.val true else s.sig
      pinScript := rest
      trace := s.trace ++ .sp (keyPin k) p :: (onSample s.descriptor s.last[k] p).events } := by
  have hlast : s.last.set k.val p k.isLt = s.last := by rw [h]; exact Vector.set_getElem_self _
  rw [hlast, ← h, onSample_same]
  exact .of_step (step_scan_same hr hp hk hpin h)

end KeyTurn

/-- Settles O28, by whether the sample is an edge. -/
theorem keyPhasesRunOnSample : Obligations.KeyPhasesRunOnSample := by
  intro s k p rest hr hp hk h0 hpin
  have hd : s.desc[keySlot k] = s.descriptor := by simp only [State.descriptor, hk]
  simp only [hd, onSample_last, onSample_signal]
  by_cases h : p = s.last[k]
  · obtain ⟨j, hj⟩ := reaches_next_of_same hr hp hk hpin h
    exact ⟨j, s.ev, s.mi, hj⟩
  · obtain ⟨m, j, hj⟩ := reaches_next_of_edge hr hp hk hpin h0 h
    exact ⟨j, edgeEvent p, m, hj⟩

/-! An iteration with no edge (45_main_loop.md R178) -/

theorem keyResult_same (desc : Vector Instr Config.nSlots) (last : Vector Bool Config.nKeys) (k : Fin Config.nKeys) :
    keyResult desc last last k = ⟨[], last[k], last[k]⟩ := onSample_same _ _

theorem keyTrace_same (desc : Vector Instr Config.nSlots) (last : Vector Bool Config.nKeys) (k : Fin Config.nKeys) :
    keyTrace desc last last k = [.sp (keyPin k) last[k]] := by
  rw [keyTrace, keyResult_same]

theorem iterationLast_same (desc : Vector Instr Config.nSlots) (last : Vector Bool Config.nKeys) :
    iterationLast desc last last = last := by
  simp only [iterationLast, keyResult_same]
  ext i hi
  match i, hi with
  | 0, _ => rfl
  | 1, _ => rfl
  | 2, _ => rfl
  | 3, _ => rfl

/-- Settles O38: no key has an edge, so each leaves its sample alone. -/
theorem iterationWithoutEdgesEmitsNothing : Obligations.IterationWithoutEdgesEmitsNothing := by
  intro desc last fb
  refine ⟨?_, iterationLast_same desc last⟩
  simp only [iterationTrace, keyTrace_same]
  rfl

end Sys2Proof.Machine
end

section
/-! SUPPORT. The knob dispatcher (O31, O32): one equation for each of its cycles, the polls of the detent wait, and the
run from `KNOB_A` to `FEED`, which is `Knob()`. -/

namespace Sys2Proof.Machine

variable {s t : State} {b : Bool} {rest : List Bool}

/-! The sampling phases with an answer of the script (45_main_loop.md R187) -/

theorem step_knobA (hr : NoReset s) (hp : s.ph = .knobA) (hpin : s.pinScript = b :: rest) : step s = .next { s with
    ph := if b then .knobB else .feed
    pinScript := rest
    trace := s.trace ++ [.sp .encA b] } := by
  simp [step_noReset hr, phaseCycle_knobA hp, phaseKnobA_eq, pinAnswer_cons s b rest hpin, hpin]

theorem step_knobB (hr : NoReset s) (hp : s.ph = .knobB) (hpin : s.pinScript = b :: rest) : step s = .next { s with
    ph := .act
    sl := slotOfDirection Config.encCwLevel b
    ev := .trigger
    pinScript := rest
    trace := s.trace ++ [.sp .encB b] } := by
  simp [step_noReset hr, phaseCycle_knobB hp, phaseKnobB_eq, pinAnswer_cons s b rest hpin, hpin]

theorem step_kWait (hr : NoReset s) (hp : s.ph = .kWait) (hpin : s.pinScript = b :: rest) : step s = .next { s with
    ph := if b then .kWait else .feed
    pinScript := rest
    trace := s.trace ++ [.sp .encA b] } := by
  simp [step_noReset hr, phaseCycle_kWait hp, phaseKWait_eq, pinAnswer_cons s b rest hpin, hpin]

/-- A settle time of 0 takes no cycle (70_reset_and_hazards.md R262). -/
theorem step_kSettle_zero (hr : NoReset s) (hp : s.ph = .kSettle) (h : Config.tSettle = 0) :
    step s = step (s.goto .kWait) := by
  rw [step_noReset hr, step_noReset (s := s.goto .kWait) hr, phaseCycle_kSettle hp, phaseCycle_kWait rfl, phaseKSettle, h,
    waitPhase_zero]

/-- Runs of at least one step from states with the same first step. -/
theorem runFor_succ_congr (h : step s = step t) (k : Nat) : runFor (k + 1) s = runFor (k + 1) t := by
  rw [runFor, runFor, h]

theorem step_kSettle_pos (hr : NoReset s) (hp : s.ph = .kSettle) (h : 0 < Config.tSettle) :
    step s = .next (delayCycle Config.tSettle (State.goto .kWait) s) := by
  rw [step_noReset hr, phaseCycle_kSettle hp, phaseKSettle, waitPhase_pos _ _ _ h]

/-! The detent wait (42_knob_dispatcher.md R134) -/

/-- Settles O32, by induction on the number of polls. -/
theorem detentThatNeverClearsHangs : Obligations.DetentThatNeverClearsHangs := by
  intro s n rest hr hp hpin
  induction n generalizing s with
  | zero =>
    have hrest : s.pinScript = rest := hpin
    rw [← hrest, List.replicate_zero, List.append_nil, runFor_zero]
  | succ n ih =>
    have hpoll := step_kWait (rest := List.replicate n true ++ rest) hr hp hpin
    rw [if_pos rfl, ← hp] at hpoll
    set t : State := { s with pinScript := List.replicate n true ++ rest, trace := s.trace ++ [.sp .encA true] }
    have htrace : s.trace ++ List.replicate (n + 1) (.sp .encA true)
        = t.trace ++ List.replicate n (.sp .encA true) := by
      simp [t, List.replicate_succ]
    rw [runFor_succ hpoll, htrace]
    exact ih t hr hp rfl

/-- The detent wait of a detent that ends: its polls, and the one that finds the pin inactive. -/
theorem run_kWait {n : Nat} (hr : NoReset s) (hp : s.ph = .kWait)
    (hpin : s.pinScript = List.replicate n true ++ false :: rest) :
    runFor (n + 1) s = .next { s with
      ph := .feed
      pinScript := rest
      trace := s.trace ++ List.replicate n (.sp .encA true) ++ [.sp .encA false] } := by
  rw [runFor_add (detentThatNeverClearsHangs s n (false :: rest) hr hp hpin)]
  set t : State := { s with pinScript := false :: rest, trace := s.trace ++ List.replicate n (.sp .encA true) }
  exact runFor_one (step_kWait (s := t) hr hp rfl)

/-- The settle time, if it is not 0, and then the detent wait (R129, R132). -/
theorem reaches_feed_of_kSettle {n : Nat} (hr : NoReset s) (hp : s.ph = .kSettle) (h0 : s.dly = 0)
    (hpin : s.pinScript = List.replicate n true ++ false :: rest) :
    Reaches s { s with
      ph := .feed
      pinScript := rest
      trace := s.trace ++ delayTrace Config.tSettle ++ List.replicate n (.sp .encA true) ++ [.sp .encA false] } := by
  obtain hz | hpos := Nat.eq_zero_or_pos Config.tSettle
  · have hwait := run_kWait (s := s.goto .kWait) hr rfl hpin
    rw [delayTrace, if_pos hz, List.append_nil]
    exact ⟨n + 1, (runFor_succ_congr (step_kSettle_zero hr hp hz) n).trans hwait⟩
  · have hsettle : Reaches s (State.goto .kWait { s with trace := s.trace ++ [.dly Config.tSettle] }) :=
      .wait (leave := State.goto .kWait) hpos h0 fun d tr =>
        step_kSettle_pos (s := { s with dly := d, trace := tr }) hr hp hpos
    rw [delayTrace, if_neg hpos.ne']
    exact hsettle.trans ⟨n + 1, run_kWait hr rfl hpin⟩

/-! `Knob()` (42_knob_dispatcher.md R133) -/

/-- A detent that ends: the direction, the Trigger's dispatch and the settling, with no cooldown. -/
theorem reaches_feed_of_detent (d : Detent) (hr : NoReset s) (hp : s.ph = .knobA) (h0 : s.dly = 0)
    (hpin : s.pinScript = knobAnswers (some d) ++ rest) :
    ∃ m, Reaches s { s with
      ph := .feed
      sl := slotOfDirection Config.encCwLevel d.b
      ev := .trigger
      mi := m
      pinScript := rest
      trace := s.trace ++ knobTrace s.desc (some d) } := by
  have hanswers : s.pinScript = true :: d.b :: (List.replicate d.polls true ++ false :: rest) := by
    simp [hpin, knobAnswers]
  have hdetent := step_knobA hr hp hanswers
  set s₁ : State := { s with
    ph := .knobB
    pinScript := d.b :: (List.replicate d.polls true ++ false :: rest)
    trace := s.trace ++ [.sp .encA true] }
  have hdirection := step_knobB (s := s₁) hr rfl rfl
  set s₂ : State := { s₁ with
    ph := .act
    sl := slotOfDirection Config.encCwLevel d.b
    ev := .trigger
    pinScript := List.replicate d.polls true ++ false :: rest
    trace := s₁.trace ++ [.sp .encB d.b] }
  obtain ⟨m, hdispatch⟩ := reaches_done (s := s₂) hr rfl h0
  set s₃ : State := { s₂ with ph := .done, mi := m, trace := s₂.trace ++ dispatchTrace s₂.descriptor s₂.ev }
  have hdone : step s₃ = .next (s₃.goto .kSettle) := (step_noReset (s := s₃) hr).trans (phaseCycle_done rfl)
  have hsettle := reaches_feed_of_kSettle (s := s₃.goto .kSettle) hr rfl h0 rfl
  have htrace : s.trace ++ knobTrace s.desc (some d) = s₃.trace ++ delayTrace Config.tSettle
      ++ List.replicate d.polls (.sp .encA true) ++ [.sp .encA false] := by
    simp [s₃, s₂, s₁, knobTrace, State.descriptor]
  rw [htrace]
  exact ⟨m, .head hdetent (.head hdirection (hdispatch.trans (.head hdone hsettle)))⟩

/-- Settles O31, by whether there is a detent. -/
theorem knobPhasesRunTheProgram : Obligations.KnobPhasesRunTheProgram := by
  intro s x rest hr hp h0 hpin
  cases x with
  | none => exact ⟨1, s.mi, runFor_one (step_knobA hr hp hpin)⟩
  | some d =>
    obtain ⟨m, j, hj⟩ := reaches_feed_of_detent d hr hp h0 hpin
    exact ⟨j, m, hj⟩

end Sys2Proof.Machine
end

section
/-! SUPPORT. The `DLY` sum of a trace (O40): of a dispatch, of a key's turn, of the knob's and of an iteration of a legal
table; and that iterations of small sum keep the sum between two refreshes small. -/

namespace Sys2Proof.Machine

/-! Traces (00_scope.md R13) -/

@[simp] theorem traceMs_nil : traceMs [] = 0 := rfl

@[simp] theorem traceMs_cons (e : PortEvent) (t : List PortEvent) : traceMs (e :: t) = e.ms + traceMs t := rfl

@[simp] theorem traceMs_append (t u : List PortEvent) : traceMs (t ++ u) = traceMs t + traceMs u := by
  simp [traceMs]

@[simp] theorem traceMs_replicate (n : Nat) (e : PortEvent) : traceMs (List.replicate n e) = n * e.ms := by
  simp [traceMs]

theorem traceMs_le_of_infix {t u : List PortEvent} (h : t <:+: u) : traceMs t ≤ traceMs u :=
  (h.sublist.map PortEvent.ms).sum_le_sum fun _ _ => Nat.zero_le _

@[simp] theorem traceMs_delayTrace (ms : Nat) : traceMs (delayTrace ms) = ms := by
  unfold delayTrace
  split
  · simp [*]
  · rfl

/-! The dispatch of a legal descriptor (43_action_dispatcher.md R154) -/

theorem traceMs_macroTrace (codes : List Byte) : traceMs (macroTrace codes) = 10 * codes.length := by
  induction codes with
  | nil => rfl
  | cons c codes ih =>
    have hstep : traceMs (macroStepTrace c) = 10 := rfl
    rw [macroTrace, List.flatMap_cons, traceMs_append, hstep, ← macroTrace, ih, List.length_cons]
    omega

theorem traceMs_dispatchTrace (d : Instr) (ev : KeyEvent) :
    traceMs (dispatchTrace d ev) = if ev = .release then 0 else 10 * codeCount d := by
  cases d with
  | kbd m c => cases ev <;> rfl
  | cons k => cases ev <;> rfl
  | macroSeq codes =>
    cases ev with
    | release => rfl
    | press => exact traceMs_macroTrace codes
    | trigger => exact traceMs_macroTrace codes

theorem codeCount_le_of_wellFormed {d : Instr} (h : d.wellFormed = true) : codeCount d ≤ 10 := by
  cases d with
  | kbd m c => exact Nat.zero_le _
  | cons k => exact Nat.zero_le _
  | macroSeq codes => exact of_decide_eq_true h

theorem traceMs_dispatchTrace_le {d : Instr} (h : d.wellFormed = true) (ev : KeyEvent) :
    traceMs (dispatchTrace d ev) ≤ 100 := by
  have hcodes := codeCount_le_of_wellFormed h
  rw [traceMs_dispatchTrace]
  split <;> omega

/-! The components of an iteration (70_reset_and_hazards.md R193) -/

theorem traceMs_cooldownTrace (d : Instr) (ev : KeyEvent) :
    traceMs (cooldownTrace d ev) = if ev = .release ∧ kindOf d = .macroKind then 50 else 0 := by
  unfold cooldownTrace
  split <;> rfl

/-- A key's dispatch waits on a Press only, and its cooldown on a Release only, so one key never waits for both. -/
theorem traceMs_onSample_le {d : Instr} (h : d.wellFormed = true) (last p : Bool) :
    traceMs (onSample d last p).events ≤ 100 := by
  by_cases hp : p = last
  · rw [hp, onSample_same]
    exact Nat.zero_le _
  · have hcodes := codeCount_le_of_wellFormed h
    rw [onSample_edge d hp, traceMs_append, traceMs_dispatchTrace, traceMs_cooldownTrace]
    cases p with
    | true =>
      rw [show edgeEvent true = .press from rfl, if_neg (by decide), if_neg (by simp)]
      omega
    | false =>
      rw [show edgeEvent false = .release from rfl, if_pos rfl]
      split <;> decide

theorem traceMs_knobTrace_le {desc : Vector Instr Config.nSlots}
    (h : ∀ i : Fin Config.nSlots, desc[i].wellFormed = true) (x : Option Detent) :
    traceMs (knobTrace desc x) ≤ 100 + Config.tSettle := by
  cases x with
  | none => exact Nat.zero_le _
  | some d =>
    have hdispatch := traceMs_dispatchTrace_le (h (slotOfDirection Config.encCwLevel d.b)) .trigger
    have hknob : traceMs (knobTrace desc (some d))
        = traceMs (dispatchTrace desc[slotOfDirection Config.encCwLevel d.b] .trigger) + Config.tSettle := by
      simp [knobTrace, PortEvent.ms]
    rw [hknob]
    exact Nat.add_le_add_right hdispatch _

section LegalTable

variable {desc : Vector Instr Config.nSlots} (h : ∀ i : Fin Config.nSlots, desc[i].wellFormed = true)
include h

theorem traceMs_keyTrace_le (last keys : Vector Bool Config.nKeys) (k : Fin Config.nKeys) :
    traceMs (keyTrace desc last keys k) ≤ 100 := by
  have hkey := traceMs_onSample_le (h (keySlot k)) last[k] keys[k]
  rw [keyTrace, traceMs_cons]
  exact (Nat.zero_add _).trans_le hkey

/-- Four keys and the knob of 100 ms each, the settle time and the delay at the end. -/
theorem traceMs_iterationTrace_le (last : Vector Bool Config.nKeys) (fb : Vector Byte Config.nFb)
    (x : IterationInput) :
    traceMs (iterationTrace desc last fb x) ≤ Config.tLoop + Config.tSettle + 500 := by
  have hkey := traceMs_keyTrace_le h last x.keys
  have hknob := traceMs_knobTrace_le h x.knob
  have hled : traceMs [ledEvent (iterationFb desc last x.keys fb)] = 0 := rfl
  have hwdr : traceMs [.wdr] = 0 := rfl
  simp only [iterationTrace, traceMs_append, traceMs_delayTrace, hled, hwdr]
  linarith [hkey 0, hkey 1, hkey 2, hkey 3]

end LegalTable

/-! Between two refreshes (70_reset_and_hazards.md R242) -/

theorem withinWatchdog_iff {timeout : Nat} {t : List PortEvent} :
    WithinWatchdog timeout t ↔ ∀ mid, mid <:+: t → .wdr ∉ mid → traceMs mid < timeout :=
  ⟨fun h mid ⟨pre, post, ht⟩ => h pre mid post ht.symm, fun h pre mid post ht => h mid ⟨pre, post, ht.symm⟩⟩

/-- A part of a trace without a refresh lies on one side of each refresh. -/
theorem infix_append_of_wdr_notMem {mid body rest : List PortEvent} (h : mid <:+: (body ++ [.wdr]) ++ rest)
    (hmid : .wdr ∉ mid) : mid <:+: body ++ [.wdr] ∨ mid <:+: rest := by
  obtain hbody | hrest | ⟨l₁, l₂, rfl, hl₁, hl₂⟩ := List.infix_append_iff.mp h
  · exact .inl hbody
  · exact .inr hrest
  · obtain rfl | ⟨l, rfl, -⟩ := List.suffix_concat_iff.mp hl₁
    · exact .inr hl₂.isInfix
    · simp at hmid

theorem withinWatchdog_append {timeout : Nat} {body rest : List PortEvent}
    (hbody : traceMs (body ++ [.wdr]) < timeout) (hrest : WithinWatchdog timeout rest) :
    WithinWatchdog timeout ((body ++ [.wdr]) ++ rest) := by
  refine withinWatchdog_iff.mpr fun mid hmid hwdr => ?_
  obtain hin | hin := infix_append_of_wdr_notMem hmid hwdr
  · exact (traceMs_le_of_infix hin).trans_lt hbody
  · exact withinWatchdog_iff.mp hrest mid hin hwdr

/-- Settles O40, by induction on the iterations: each ends with its refresh and its whole sum is below the timeout. -/
theorem delaySumBetweenRefreshesIsBounded : Obligations.DelaySumBetweenRefreshesIsBounded := by
  intro timeout desc last fb xs hdesc ht
  induction xs generalizing last fb with
  | nil =>
    refine withinWatchdog_iff.mpr fun mid hmid _ => ?_
    rw [List.infix_nil.mp hmid]
    exact (Nat.zero_le _).trans_lt ht
  | cons x xs ih => exact withinWatchdog_append ((traceMs_iterationTrace_le hdesc last fb x).trans_lt ht) (ih _ _)

end Sys2Proof.Machine
end

section
/-! SUPPORT. The dispatch of one descriptor cycle by cycle (O16, O17), its frame (O20) and a macro's whole run (O23). -/

namespace Sys2Proof.Machine

variable {s t : State}

/-! A `KBD` or `CONS` by its event (R144, R145, R147 to R150) -/

/-- A down on Press, an up on Release, and on Trigger both in two cycles with nothing between (45_main_loop.md R182). -/
theorem pulseDispatch_byEvent (down up : PortEvent) (hp : s.ph = .act) :
    (s.ev = .press → pulseDispatch down up s = .next { s with ph := .done, trace := s.trace ++ [down] }) ∧
    (s.ev = .release → pulseDispatch down up s = .next { s with ph := .done, trace := s.trace ++ [up] }) ∧
    (s.ev = .trigger →
      pulseDispatch down up s = .next { s with ph := .act2, trace := s.trace ++ [down] } ∧
      pulseDispatch down up { s with ph := .act2, trace := s.trace ++ [down] } =
        .next { s with ph := .done, trace := s.trace ++ [down, up] }) := by
  refine ⟨pulseDispatch_press hp, pulseDispatch_release hp, fun he => ⟨pulseDispatch_trigger hp he, ?_⟩⟩
  rw [List.append_cons s.trace down [up]]
  exact pulseDispatch_act2 (s := (s.log down).goto .act2) rfl he

/-- Settles O16: `KBD` is the dispatch of a key-down and a key-up with the stored bytes. -/
theorem keyboardEmitsByEvent : Obligations.KeyboardEmitsByEvent := fun m c _ hp =>
  pulseDispatch_byEvent (.kd m c) (.ku m c) hp

/-- Settles O17: `CONS` is the dispatch of a consumer down and up with the stored code. -/
theorem consumerEmitsByEvent : Obligations.ConsumerEmitsByEvent := fun k _ hp =>
  pulseDispatch_byEvent (.cd k) (.cu k) hp

/-! The frame of a dispatch (R140): one update of the four elements it may write -/

/-- `KBD` and `CONS` write the phase and one event. -/
theorem pulseDispatch_frame {down up : PortEvent} (h : pulseDispatch down up s = .next t) :
    ∃ e p, t = (s.log e).goto p := by
  obtain ⟨-, -, rfl⟩ | ⟨-, -, rfl⟩ | ⟨-, -, rfl⟩ | ⟨-, -, rfl⟩ := pulseDispatch_next h
  · exact ⟨down, .done, rfl⟩
  · exact ⟨up, .done, rfl⟩
  · exact ⟨down, .act2, rfl⟩
  · exact ⟨up, .done, rfl⟩

/-- A cycle that writes no more than a dispatch may: the phase, `MI`, `DLY`, and at most one event. -/
def DispatchWrites (s t : State) : Prop :=
  ∃ p m d added, t = { s with ph := p, mi := m, dly := d, trace := s.trace ++ added } ∧ added.length ≤ 1

theorem DispatchWrites.of_silent {p : Phase} {m d : Nat} : DispatchWrites s { s with ph := p, mi := m, dly := d } :=
  ⟨p, m, d, [], by rw [List.append_nil], Nat.zero_le 1⟩

theorem DispatchWrites.of_log (e : PortEvent) (p : Phase) : DispatchWrites s ((s.log e).goto p) :=
  ⟨p, s.mi, s.dly, [e], rfl, Nat.le_refl 1⟩

theorem length_delayEvents_le (ms : Nat) (s : State) : (delayEvents ms s).length ≤ 1 := by
  unfold delayEvents
  split <;> simp

/-- A wait logs at most its one event; what the phase writes on being left is `leave`'s. -/
theorem DispatchWrites.of_delayCycle (ms : Nat) {leave : State → State} {p : Phase} {f : Nat → Nat}
    (hleave : ∀ u : State, leave u = { u with ph := p, mi := f u.mi }) : DispatchWrites s (delayCycle ms leave s) := by
  have hone := length_delayEvents_le ms s
  rw [delayCycle_eq]
  split
  · rw [hleave]
    exact ⟨p, f s.mi, 0, delayEvents ms s, rfl, hone⟩
  · exact ⟨s.ph, s.mi, ticksLeft ms s, delayEvents ms s, rfl, hone⟩

theorem macroAct_dispatchWrites (s : State) : DispatchWrites s (macroAct s) := by
  by_cases he : s.ev = .release
  · rw [macroAct_release he]
    exact .of_silent
  · rw [macroAct_start he]
    exact .of_silent

theorem execMacroSeq_dispatchWrites {codes : List Byte} (h : execMacroSeq codes s = .next t) : DispatchWrites s t := by
  obtain ⟨-, rfl⟩ | ⟨-, c, -, rfl⟩ | ⟨-, -, rfl⟩ | ⟨-, rfl⟩ | ⟨-, c, -, rfl⟩ | ⟨-, rfl⟩ := execMacroSeq_next h
  · exact macroAct_dispatchWrites s
  · exact .of_log _ _
  · exact .of_silent
  · exact .of_delayCycle _ (p := .mUp) (f := id) fun _ => rfl
  · exact .of_log _ _
  · exact .of_delayCycle _ (p := .mDown) (f := (· + 1)) fun _ => rfl

theorem exec_dispatchWrites {i : Instr} (h : exec i s = .next t) : DispatchWrites s t := by
  cases i with
  | kbd _ _ | cons _ =>
    obtain ⟨e, p, rfl⟩ := pulseDispatch_frame h
    exact .of_log e p
  | macroSeq codes => exact execMacroSeq_dispatchWrites h

/-- `MI` and `DLY` are the macro sequencer's alone. -/
theorem exec_keeps_mi_dly {i : Instr} (h : exec i s = .next t) (hk : kindOf i ≠ .macroKind) :
    t.mi = s.mi ∧ t.dly = s.dly := by
  cases i with
  | kbd _ _ | cons _ =>
    obtain ⟨e, p, rfl⟩ := pulseDispatch_frame h
    exact ⟨rfl, rfl⟩
  | macroSeq _ => exact absurd rfl hk

/-- Settles O20: what a cycle of a dispatch may write is none of the elements named. -/
theorem dispatchFrame : Obligations.DispatchFrame := by
  intro i s t h
  have hkeep := exec_keeps_mi_dly h
  obtain ⟨p, m, d, added, rfl, hlen⟩ := exec_dispatchWrites h
  exact ⟨rfl, rfl, rfl, rfl, rfl, rfl, rfl, rfl, rfl, rfl, rfl, rfl, rfl, rfl, fun _ => rfl, hkeep, added, rfl, hlen⟩

/-! A macro's whole dispatch (R146, R151 to R153) -/

/-- The events of a macro with its waits written out: none on Release, the same on Press and Trigger. -/
theorem dispatchTrace_macroSeq (codes : List Byte) (ev : KeyEvent) :
    dispatchTrace (.macroSeq codes) ev =
      if ev = .release then [] else codes.flatMap fun c => [.kd 0 c, .dly 5, .ku 0 c, .dly 5] := by
  cases ev <;> rfl

/-- Settles O23: the phases run the macro, whose events are those of its codes in order. -/
theorem macroDispatchStepByStep : Obligations.MacroDispatchStepByStep := by
  intro s codes hr hp h0 hd
  obtain ⟨m, k, hrun⟩ := reaches_done_of_macro hr hd hp h0
  rw [dispatchTrace_macroSeq] at hrun
  exact ⟨k, m, hrun⟩

end Sys2Proof.Machine
end

section
/-! SUPPORT. The feedback levels: one channel's new level, `FEED` (O33), and the decay over iterations (O34). -/

namespace Sys2Proof.Machine

/-! One channel's level (R166, R167) -/

@[simp] theorem feedbackLevel_signalled (top floor level : Byte) : feedbackLevel top floor true level = top := rfl

theorem feedbackLevel_released_above (top : Byte) {floor level : Byte} (h : floor.toNat < level.toNat) :
    (feedbackLevel top floor false level).toNat = level.toNat - 1 := by
  have hlt : floor < level := BitVec.lt_def.mpr h
  rw [feedbackLevel, if_neg Bool.false_ne_true, if_pos hlt]
  bv_omega

theorem feedbackLevel_released_atFloor (top : Byte) {floor level : Byte} (h : level.toNat ≤ floor.toNat) :
    feedbackLevel top floor false level = level := by
  have hge : ¬ floor < level := BitVec.not_lt.mpr (BitVec.le_def.mpr h)
  rw [feedbackLevel, if_neg Bool.false_ne_true, if_neg hge]

/-- Both cases in one: the decay of a level that is at the floor or above it. -/
theorem toNat_feedbackLevel_released (top : Byte) {floor level : Byte} (h : floor.toNat ≤ level.toNat) :
    (feedbackLevel top floor false level).toNat = max (level.toNat - 1) floor.toNat := by
  obtain habove | hat := h.lt_or_eq
  · rw [feedbackLevel_released_above top habove]
    exact (Nat.max_eq_left (Nat.le_sub_one_of_lt habove)).symm
  · rw [feedbackLevel_released_atFloor top hat.ge, ← hat]
    exact (Nat.max_eq_right (Nat.sub_le _ 1)).symm

@[simp] theorem feedbackLevels_getElem (sig : Vector Bool Config.nFb) (fb : Vector Byte Config.nFb)
    (c : Fin Config.nFb) : (feedbackLevels sig fb)[c] = feedbackLevel Config.fbMax Config.fbFloor sig[c] fb[c] :=
  Vector.getElem_zipWith ..

/-! `FEED` (R169) -/

/-- Settles O33: the new levels are those of each channel by its signal, and `FEED` writes and pushes them once. -/
theorem feedSetsDecaysAndPushes : Obligations.FeedSetsDecaysAndPushes := by
  intro s hr hp
  refine ⟨feedbackLevels s.sig s.fb, fun c => ?_, ?_⟩
  · rw [feedbackLevels_getElem]
    refine ⟨fun hs => ?_, fun hs habove => ?_, fun hs hfloor => ?_⟩
    · rw [hs, feedbackLevel_signalled]
    · rw [hs, feedbackLevel_released_above _ habove]
    · rw [hs, feedbackLevel_released_atFloor _ hfloor]
  · rw [step_low hr, phaseCycle_feed (s := passEdge s) hp, phaseFeed_eq]
    rfl

/-! The decay over iterations (R170) -/

section Channel

variable (desc : Vector Instr Config.nSlots) (last : Vector Bool Config.nKeys) (c : Fin Config.nFb)

/-- A channel is signalled exactly in the iterations in which its key reads pressed, whatever `LAST` holds. -/
theorem iterationSig_getElem (keys : Vector Bool Config.nKeys) :
    (iterationSig desc last keys)[c] = keys[channelKey c] := by
  match c with
  | 0 | 1 | 2 => exact onSample_signal _ _ _

theorem iterationFb_getElem (keys : Vector Bool Config.nKeys) (fb : Vector Byte Config.nFb) :
    (iterationFb desc last keys fb)[c] =
      feedbackLevel Config.fbMax Config.fbFloor keys[channelKey c] fb[c] := by
  rw [iterationFb, feedbackLevels_getElem, iterationSig_getElem]

theorem toNat_iterationsFb_released (fb : Vector Byte Config.nFb) (xs : List IterationInput)
    (hxs : ∀ x ∈ xs, x.keys[channelKey c] = false) (hfb : Config.fbFloor.toNat ≤ fb[c].toNat) :
    (iterationsFb desc last fb xs)[c].toNat = max (fb[c].toNat - xs.length) Config.fbFloor.toNat := by
  induction xs generalizing last fb with
  | nil => exact (Nat.max_eq_left hfb).symm
  | cons x xs ih =>
    obtain ⟨hx, hxs⟩ := List.forall_mem_cons.mp hxs
    have hone : (iterationFb desc last x.keys fb)[c].toNat = max (fb[c].toNat - 1) Config.fbFloor.toNat := by
      rw [iterationFb_getElem, hx, toNat_feedbackLevel_released _ hfb]
    have hfloor : Config.fbFloor.toNat ≤ (iterationFb desc last x.keys fb)[c].toNat :=
      hone ▸ Nat.le_max_right _ _
    rw [iterationsFb, ih _ _ hxs hfloor, hone, List.length_cons]
    omega

theorem iterationsFb_pressed (fb : Vector Byte Config.nFb) (xs : List IterationInput)
    (hxs : ∀ x ∈ xs, x.keys[channelKey c] = true) (hne : xs ≠ []) :
    (iterationsFb desc last fb xs)[c] = Config.fbMax := by
  induction xs generalizing last fb with
  | nil => exact absurd rfl hne
  | cons x xs ih =>
    obtain ⟨hx, hxs⟩ := List.forall_mem_cons.mp hxs
    by_cases hlast : xs = []
    · rw [hlast, iterationsFb, iterationsFb, iterationFb_getElem, hx, feedbackLevel_signalled]
    · exact ih _ _ hxs hlast

end Channel

/-- Settles O34, by induction on the iterations in each of which the key's level alone drives its channel. -/
theorem decayIsOnePerIterationDownToTheFloor : Obligations.DecayIsOnePerIterationDownToTheFloor :=
  fun desc last fb c xs =>
    ⟨fun hxs hfb => toNat_iterationsFb_released desc last c fb xs hxs (BitVec.le_def.mp hfb),
      iterationsFb_pressed desc last c fb xs⟩

end Sys2Proof.Machine
end

section
/-! SUPPORT. The phases one by one (O6, O8, O10, O18, O19, O22, O26, O27, O30, O35): what a step does in each, with any
answer of the environment. -/

namespace Sys2Proof.Machine

variable {s : State}

/-! Start-up and the dispatch phases (45_main_loop.md R180, R182, R183) -/

/-- Settles O6: each phase named is one in which the cycle is `exec` of the descriptor. -/
theorem stepRunsTheCurrentDescriptor : Obligations.StepRunsTheCurrentDescriptor := by
  intro s hr hp
  obtain ⟨hdisp, hdone⟩ : s.ph.dispatching = true ∧ s.ph ≠ .done := by
    rcases hp with h | h | h | h | h | h <;> rw [h] <;> exact ⟨rfl, nofun⟩
  exact (step_low hr).trans (phaseCycle_dispatch (s := passEdge s) hdisp hdone)

/-- A sample past the script's end is a free draw (log 7). -/
theorem drawsAfterSample (s : State) :
    (if s.pinScript.isEmpty then s.pinDraws + 1 else s.pinDraws)
      = if s.pinScript = [] then s.pinDraws + 1 else s.pinDraws := by
  simp only [List.isEmpty_iff]

/-- Settles O8: the cycle of `GATE` at this clock edge. -/
theorem gateSamplesKeyOneOnce : Obligations.GateSamplesKeyOneOnce := by
  intro s hr hp
  rw [step_low hr, phaseCycle_gate (s := passEdge s) hp, phaseGate_eq, drawsAfterSample]
  rfl

/-- Settles O10, by induction on the number of steps: each leaves the state as it is. -/
theorem terminalPhasesStayForEver : Obligations.TerminalPhasesStayForEver := by
  intro s k hr hp
  have hstay : step s = .next s := by
    rw [step_noReset hr]
    exact hp.elim phaseCycle_boot phaseCycle_fault
  induction k with
  | zero => rfl
  | succ k ih => rw [runFor_succ hstay, ih]

/-! A macro's cycles (R182, R183) -/

/-- Settles O18, by the phase. -/
theorem macroCyclesByPhase : Obligations.MacroCyclesByPhase := by
  intro codes s
  refine ⟨fun hp he => ?_, fun hp he => ?_, fun c hp hc => execMacroSeq_mDown_code hp hc,
    fun hp hm => execMacroSeq_mDown_end hp hm, fun c hp hc => execMacroSeq_mUp hp hc⟩
  · exact (execMacroSeq_act hp).trans (congrArg _ (macroAct_start he))
  · exact (execMacroSeq_act hp).trans (congrArg _ (macroAct_release he))

theorem append_delayEvents (ms : Nat) (s : State) :
    s.trace ++ delayEvents ms s = if s.dly = 0 then s.trace ++ [.dly ms] else s.trace := by
  unfold delayEvents
  split
  · rfl
  · exact List.append_nil _

/-- Settles O19, by the phase and whether this is the wait's last cycle. -/
theorem macroWaitCycles : Obligations.MacroWaitCycles := by
  intro codes s hp left
  have hleft : ticksLeft Config.tStep s = left := rfl
  obtain hp | hp := hp
  · refine (execMacroSeq_mW1 hp).trans ?_
    rw [delayCycle_eq, hleft, append_delayEvents]
    by_cases hl : left = 0 <;> simp [hl, hp, State.goto]
  · refine (execMacroSeq_mW2 hp).trans ?_
    rw [delayCycle_eq, hleft, append_delayEvents]
    by_cases hl : left = 0 <;> simp [hl, hp, macroAdvance]

/-- Settles O22, by the run of any dispatch. -/
theorem dispatchPhasesRunTheProgram : Obligations.DispatchPhasesRunTheProgram := by
  intro s hr hp h0
  obtain ⟨m, k, hrun⟩ := reaches_done hr hp h0
  exact ⟨k, m, hrun⟩

/-! The phases of a key slot (R181, R184) -/

/-- Settles O26: the cycle of `SCAN` at this clock edge. -/
theorem scanLeadsByEdge : Obligations.ScanLeadsByEdge := by
  intro s k hr hp hk
  refine ⟨rfl, rfl, rfl, rfl, ?_⟩
  rw [step_low hr, phaseCycle_scan (s := passEdge s) hp, phaseScan_eq (s := passEdge s) hk, drawsAfterSample]
  rfl

theorem phaseAfterDispatch_eq (ev : KeyEvent) (kind : Kind) :
    phaseAfterDispatch ev kind =
      if ev = .trigger then .kSettle else if ev = .release ∧ kind = .macroKind then .cool else .commit := by
  cases ev <;> cases kind <;> rfl

theorem step_done (hr : NoReset s) (hp : s.ph = .done) :
    step s = .next { s with ph := phaseAfterDispatch s.ev (kindOf s.desc[s.sl]) } := by
  rw [step_noReset hr, phaseCycle_done hp, phaseDone_eq]

theorem step_next_of_lt (hr : NoReset s) (hp : s.ph = .next) (h : s.sl.val < 3) : step s = .next { s with
    ph := .scan
    sl := ⟨s.sl.val + 1, Nat.lt_trans (Nat.succ_lt_succ h) (by decide)⟩ } := by
  have hkey : s.sl.val + 1 < Config.nKeys := Nat.succ_lt_succ h
  rw [step_noReset hr, phaseCycle_next hp, phaseNext, dif_pos hkey]

theorem step_next_of_last (hr : NoReset s) (hp : s.ph = .next) (h : s.sl.val = 3) :
    step s = .next (s.goto .knobA) := by
  have hlast : s.sl.val + 1 = Config.nKeys := congrArg (· + 1) h
  rw [step_noReset hr, phaseCycle_next hp, phaseNext, dif_neg hlast.not_lt, if_pos hlast]

/-- Settles O27, by the phase. -/
theorem afterADispatch : Obligations.AfterADispatch := by
  intro s hr
  refine ⟨fun hp => ?_, fun hp h0 => reaches_commit_of_cool hr hp h0, fun k hp hk => step_commit hr hp hk,
    fun h hp => step_next_of_lt hr hp h, fun h hp => step_next_of_last hr hp h⟩
  rw [step_done hr hp, phaseAfterDispatch_eq]

/-! The knob phases (R187) -/

theorem reaches_kWait_of_kSettle (hr : NoReset s) (hp : s.ph = .kSettle) (h0 : s.dly = 0) (hpos : 0 < Config.tSettle) :
    Reaches s { s with ph := .kWait, trace := s.trace ++ [.dly Config.tSettle] } :=
  .wait (leave := State.goto .kWait) hpos h0 fun d tr =>
    step_kSettle_pos (s := { s with dly := d, trace := tr }) hr hp hpos

/-- Settles O30, by the phase. -/
theorem knobPhases : Obligations.KnobPhases := by
  intro s hr sampled
  refine ⟨fun hp => ?_, fun hp => ?_, fun hp _ hz => step_kSettle_zero hr hp hz,
    fun hp h0 hpos => reaches_kWait_of_kSettle hr hp h0 hpos, fun hp => ?_⟩
  · rw [step_noReset hr, phaseCycle_knobA hp, phaseKnobA_eq, drawsAfterSample]
  · rw [step_noReset hr, phaseCycle_knobB hp, phaseKnobB_eq, drawsAfterSample]
    rfl
  · rw [step_noReset hr, phaseCycle_kWait hp, phaseKWait_eq, drawsAfterSample]

/-! The end of an iteration (R185, R186) -/

theorem step_wdr (hr : NoReset s) (hp : s.ph = .wdr) : step s = .next (phaseWdr s) :=
  (step_noReset hr).trans (phaseCycle_wdr hp)

/-- A loop delay of 0 takes no cycle (70_reset_and_hazards.md R262). -/
theorem step_endDly_zero (hr : NoReset s) (hp : s.ph = .endDly) (h : Config.tLoop = 0) :
    step s = step (s.goto .wdr) := by
  rw [step_wdr (s := s.goto .wdr) hr rfl, step_noReset hr, phaseCycle_endDly hp, phaseEndDly, h, waitPhase_zero]

theorem step_endDly_pos (hr : NoReset s) (hp : s.ph = .endDly) (h : 0 < Config.tLoop) :
    step s = .next (delayCycle Config.tLoop (State.goto .wdr) s) := by
  rw [step_noReset hr, phaseCycle_endDly hp, phaseEndDly, waitPhase_pos _ _ _ h]

theorem reaches_wdr_of_endDly (hr : NoReset s) (hp : s.ph = .endDly) (h0 : s.dly = 0) (hpos : 0 < Config.tLoop) :
    Reaches s { s with ph := .wdr, trace := s.trace ++ [.dly Config.tLoop] } :=
  .wait (leave := State.goto .wdr) hpos h0 fun d tr =>
    step_endDly_pos (s := { s with dly := d, trace := tr }) hr hp hpos

/-- Settles O35, by the phase and whether the loop delay is 0. -/
theorem iterationEndsWithDelayAndRefresh : Obligations.IterationEndsWithDelayAndRefresh := fun _ hr =>
  ⟨fun hp _ hz => step_endDly_zero hr hp hz, fun hp h0 hpos => reaches_wdr_of_endDly hr hp h0 hpos, step_wdr hr⟩

end Sys2Proof.Machine
end

section
/-! SUPPORT. One iteration and the whole run (O36, O37, O39): a key's turn as one update of the state, the four turns
one after the other, the knob, and the end of the iteration. -/

namespace Sys2Proof.Machine

variable {s : State} {rest : List Bool}

/-! The program's iteration by the samples alone (45_main_loop.md R178) -/

/-- Whatever `LAST` was, after an iteration it holds the samples. -/
theorem iterationLast_eq (desc : Vector Instr Config.nSlots) (last keys : Vector Bool Config.nKeys) :
    iterationLast desc last keys = keys := by
  simp only [iterationLast, keyResult, onSample_last]
  ext i hi
  match i, hi with
  | 0, _ | 1, _ | 2, _ | 3, _ => rfl

theorem iterationSig_eq (desc : Vector Instr Config.nSlots) (last keys : Vector Bool Config.nKeys) :
    iterationSig desc last keys = #v[keys[0], keys[1], keys[2]] := by
  simp only [iterationSig, keyResult, onSample_signal]
  rfl

/-- The turn of one key does not touch another's `LAST` bit. -/
theorem keyTrace_set_ne (desc : Vector Instr Config.nSlots) (last keys : Vector Bool Config.nKeys) (b : Bool)
    {j k : Fin Config.nKeys} (h : j ≠ k) :
    keyTrace desc (last.set j.val b j.isLt) keys k = keyTrace desc last keys k := by
  have hlast : (last.set j.val b j.isLt)[k] = last[k] :=
    Vector.getElem_set_ne _ _ fun e => h (Fin.ext e)
  rw [keyTrace, keyTrace, keyResult, keyResult, hlast]

/-! A key's turn (R181 to R184) -/

/-- The engine in a phase, at a slot. -/
def State.place (p : Phase) (sl : Fin Config.nSlots) (s : State) : State := { s with ph := p, sl := sl }

/-- The signals after a key's turn in which its sample is `p`. -/
def raisedBy (k : Fin Config.nKeys) (p : Bool) (sig : Vector Bool Config.nFb) : Vector Bool Config.nFb :=
  if p then sig.setIfInBounds k.val true else sig

/-- What a key's turn writes. `EV` and `MI` hold what the turn's dispatch, if any, left. -/
def State.afterKey (keys : Vector Bool Config.nKeys) (k : Fin Config.nKeys) (ev : KeyEvent) (m : Nat)
    (rest : List Bool) (s : State) : State :=
  { s with
    cp := keys[k]
    ev := ev
    mi := m
    last := s.last.set k.val keys[k] k.isLt
    sig := raisedBy k keys[k] s.sig
    pinScript := rest
    trace := s.trace ++ keyTrace s.desc s.last keys k }

theorem reaches_afterKey (keys : Vector Bool Config.nKeys) (k : Fin Config.nKeys) (hr : NoReset s) (h0 : s.dly = 0)
    (hpin : s.pinScript = keys[k] :: rest) :
    ∃ ev m, Reaches (s.place .scan (keySlot k)) ((s.afterKey keys k ev m rest).place .next (keySlot k)) := by
  obtain ⟨j, ev, m, hrun⟩ := keyPhasesRunOnSample (s.place .scan (keySlot k)) k keys[k] rest hr rfl rfl h0 hpin
  simp only [onSample_last, onSample_signal] at hrun
  exact ⟨ev, m, j, hrun⟩

theorem step_nextKey {k k' : Fin Config.nKeys} (hr : NoReset s) (hnext : k'.val = k.val + 1) :
    step (s.place .next (keySlot k)) = .next (s.place .scan (keySlot k')) := by
  have hlt : k.val < 3 := Nat.lt_of_succ_lt_succ (hnext.symm.trans_lt k'.isLt)
  have hslot : keySlot k' = ⟨k.val + 1, Nat.lt_trans (Nat.succ_lt_succ hlt) (by decide)⟩ := Fin.ext hnext
  rw [hslot]
  exact step_next_of_lt (s := s.place .next (keySlot k)) hr rfl hlt

/-- A key's turn and the step to the next key. -/
theorem reaches_nextKey (keys : Vector Bool Config.nKeys) {k k' : Fin Config.nKeys} (hnext : k'.val = k.val + 1)
    (hr : NoReset s) (h0 : s.dly = 0) (hpin : s.pinScript = keys[k] :: rest) :
    ∃ ev m, Reaches (s.place .scan (keySlot k)) ((s.afterKey keys k ev m rest).place .scan (keySlot k')) := by
  obtain ⟨ev, m, hturn⟩ := reaches_afterKey keys k hr h0 hpin
  exact ⟨ev, m, hturn.trans (.of_step (step_nextKey (s := s.afterKey keys k ev m rest) hr hnext))⟩

/-! The four keys (41_key_state_machine.md R105, 45_main_loop.md R178) -/

/-- What the four turns write together. -/
def State.afterKeys (keys : Vector Bool Config.nKeys) (ev : KeyEvent) (m : Nat) (rest : List Bool) (s : State) :
    State :=
  { s with
    cp := keys[3]
    ev := ev
    mi := m
    last := keys
    sig := #v[keys[0], keys[1], keys[2]]
    pinScript := rest
    trace := s.trace ++ keyTrace s.desc s.last keys 0 ++ keyTrace s.desc s.last keys 1
      ++ keyTrace s.desc s.last keys 2 ++ keyTrace s.desc s.last keys 3 }

theorem raisedBy_all (b0 b1 b2 b3 : Bool) :
    raisedBy 3 b3 (raisedBy 2 b2 (raisedBy 1 b1 (raisedBy 0 b0 #v[false, false, false]))) = #v[b0, b1, b2] := by
  revert b0 b1 b2 b3
  decide

theorem set_all (last keys : Vector Bool Config.nKeys) :
    (((last.set 0 keys[0]).set 1 keys[1]).set 2 keys[2]).set 3 keys[3] = keys := by
  ext i hi
  match i, hi with
  | 0, _ | 1, _ | 2, _ | 3, _ => simp

theorem toList_keys (keys : Vector Bool Config.nKeys) : keys.toList = [keys[0], keys[1], keys[2], keys[3]] := by
  match keys with
  | ⟨⟨[_, _, _, _]⟩, _⟩ => rfl

/-- The four turns, from the first key's `SCAN` to `KNOB_A`. -/
theorem reaches_afterKeys (keys : Vector Bool Config.nKeys) (hr : NoReset s) (h0 : s.dly = 0)
    (hsig : s.sig = #v[false, false, false]) (hpin : s.pinScript = keys.toList ++ rest) :
    ∃ ev m, Reaches (s.place .scan 0) ((s.afterKeys keys ev m rest).place .knobA 3) := by
  rw [toList_keys] at hpin
  obtain ⟨ev₀, m₀, hkey₀⟩ := reaches_nextKey (k := 0) (k' := 1) keys rfl hr h0 hpin
  set s₁ := s.afterKey keys 0 ev₀ m₀ (keys[1] :: keys[2] :: keys[3] :: rest)
  obtain ⟨ev₁, m₁, hkey₁⟩ := reaches_nextKey (k := 1) (k' := 2) (s := s₁) keys rfl hr h0 rfl
  set s₂ := s₁.afterKey keys 1 ev₁ m₁ (keys[2] :: keys[3] :: rest)
  obtain ⟨ev₂, m₂, hkey₂⟩ := reaches_nextKey (k := 2) (k' := 3) (s := s₂) keys rfl hr h0 rfl
  set s₃ := s₂.afterKey keys 2 ev₂ m₂ (keys[3] :: rest)
  obtain ⟨ev₃, m₃, hkey₃⟩ := reaches_afterKey (s := s₃) keys 3 hr h0 rfl
  have hall : s₃.afterKey keys 3 ev₃ m₃ rest = s.afterKeys keys ev₃ m₃ rest := by
    simp (disch := decide) only [s₃, s₂, s₁, State.afterKey, State.afterKeys, hsig, raisedBy_all, keyTrace_set_ne]
    exact congrArg (fun last => { s.afterKeys keys ev₃ m₃ rest with last := last }) (set_all s.last keys)
  have hknob := step_next_of_last (s := (s.afterKeys keys ev₃ m₃ rest).place .next 3) hr rfl rfl
  rw [hall] at hkey₃
  exact ⟨ev₃, m₃, hkey₀.trans (hkey₁.trans (hkey₂.trans (hkey₃.trans (.of_step hknob))))⟩

/-! The knob, the feedback and the end of the iteration (R185 to R187) -/

/-- What the knob's phases write, but for `SL`. -/
def State.afterKnob (x : Option Detent) (ev : KeyEvent) (m : Nat) (rest : List Bool) (s : State) : State :=
  { s with ev := ev, mi := m, pinScript := rest, trace := s.trace ++ knobTrace s.desc x }

theorem reaches_afterKnob {x : Option Detent} {sl : Fin Config.nSlots} (hr : NoReset s) (h0 : s.dly = 0)
    (hpin : s.pinScript = knobAnswers x ++ rest) :
    ∃ sl' ev m, Reaches (s.place .knobA sl) ((s.afterKnob x ev m rest).place .feed sl') := by
  obtain ⟨j, m, hrun⟩ := knobPhasesRunTheProgram (s.place .knobA sl) x rest hr rfl h0 hpin
  exact ⟨_, _, m, j, hrun⟩

/-- What the phases after the knob write, but for `PH` and `SL`: the push, the delay if it is not 0, the refresh. -/
def State.afterFeed (s : State) : State :=
  { s with
    sig := noSignals
    fb := feedbackLevels s.sig s.fb
    trace := s.trace ++ [ledEvent (feedbackLevels s.sig s.fb)] ++ delayTrace Config.tLoop ++ [.wdr] }

theorem reaches_afterFeed {sl : Fin Config.nSlots} (hr : NoReset s) (h0 : s.dly = 0) :
    Reaches (s.place .feed sl) (s.afterFeed.place .scan 0) := by
  set t := phaseFeed (s.place .feed sl)
  have hfeed : step (s.place .feed sl) = .next t :=
    (step_noReset (s := s.place .feed sl) hr).trans (phaseCycle_feed rfl)
  obtain hz | hpos := Nat.eq_zero_or_pos Config.tLoop
  · have hwdr : step t = .next (phaseWdr (t.goto .wdr)) :=
      (step_endDly_zero (s := t) hr rfl hz).trans (step_wdr (s := t.goto .wdr) hr rfl)
    rw [State.afterFeed, delayTrace, if_pos hz, List.append_nil]
    exact .head hfeed (.of_step hwdr)
  · have hwait := reaches_wdr_of_endDly (s := t) hr rfl h0 hpos
    rw [State.afterFeed, delayTrace, if_neg hpos.ne']
    exact .head hfeed (hwait.trans (.of_step (step_wdr hr rfl)))

/-! The whole iteration (R178) -/

/-- What an iteration writes. `CP`, `EV` and `MI` hold what its last key and its last dispatch left. -/
def State.afterIteration (x : IterationInput) (cp : Bool) (ev : KeyEvent) (m : Nat) (rest : List Bool) (s : State) :
    State :=
  { s with
    cp := cp
    ev := ev
    mi := m
    last := iterationLast s.desc s.last x.keys
    fb := iterationFb s.desc s.last x.keys s.fb
    pinScript := rest
    trace := s.trace ++ iterationTrace s.desc s.last s.fb x }

/-- The engine at the start of an iteration: `SCAN` of the first key with no signal raised and no wait in progress. -/
structure IterationStart (s : State) : Prop where
  noReset : NoReset s
  ph : s.ph = .scan
  sl : s.sl = 0
  sig : s.sig = #v[false, false, false]
  dly : s.dly = 0

theorem IterationStart.place_eq (hs : IterationStart s) : s.place .scan 0 = s := by
  rw [State.place, ← hs.ph, ← hs.sl]

/-- The keys, the knob and the end together write what the program's iteration does. -/
theorem afterFeed_eq_afterIteration {x : IterationInput} {ev ev' : KeyEvent} {m m' : Nat} {rest' : List Bool}
    (hs : IterationStart s) :
    ((s.afterKeys x.keys ev m rest).afterKnob x.knob ev' m' rest').afterFeed.place .scan 0 =
      s.afterIteration x x.keys[3] ev' m' rest' := by
  have hsig : noSignals = s.sig := hs.sig.symm
  simp only [State.afterFeed, State.afterKnob, State.afterKeys, State.afterIteration, State.place, iterationLast_eq,
    iterationFb, iterationSig_eq, iterationTrace, List.append_assoc, hsig, hs.ph, hs.sl]

theorem reaches_afterIteration {x : IterationInput} (hs : IterationStart s) (hpin : s.pinScript = x.answers ++ rest) :
    ∃ cp ev m, Reaches s (s.afterIteration x cp ev m rest) := by
  rw [IterationInput.answers, List.append_assoc] at hpin
  obtain ⟨ev, m, hkeys⟩ := reaches_afterKeys x.keys hs.noReset hs.dly hs.sig hpin
  set s₁ := s.afterKeys x.keys ev m (knobAnswers x.knob ++ rest)
  obtain ⟨sl, ev', m', hknob⟩ := reaches_afterKnob (s := s₁) (sl := 3) hs.noReset hs.dly rfl
  have hend := reaches_afterFeed (s := s₁.afterKnob x.knob ev' m' rest) (sl := sl) hs.noReset hs.dly
  rw [afterFeed_eq_afterIteration hs] at hend
  rw [hs.place_eq] at hkeys
  exact ⟨x.keys[3], ev', m', hkeys.trans (hknob.trans hend)⟩

/-- An iteration is at least one step: it leaves events. -/
theorem iterationTrace_ne_nil (desc : Vector Instr Config.nSlots) (last : Vector Bool Config.nKeys)
    (fb : Vector Byte Config.nFb) (x : IterationInput) : iterationTrace desc last fb x ≠ [] :=
  List.append_ne_nil_of_right_ne_nil _ (List.cons_ne_nil _ _)

/-- Settles O36, by the keys, the knob and the end of the iteration. -/
theorem iterationPhasesRunTheProgram : Obligations.IterationPhasesRunTheProgram := by
  intro s x rest hr hp hsl hsig h0 hpin
  obtain ⟨cp, ev, m, k, hrun⟩ := reaches_afterIteration ⟨hr, hp, hsl, hsig, h0⟩ hpin
  refine ⟨k, cp, ev, m, Nat.pos_of_ne_zero ?_, hrun⟩
  rintro rfl
  have hsame : s = s.afterIteration x cp ev m rest := Host.Outcome.next.inj hrun
  exact iterationTrace_ne_nil _ _ _ _ (List.self_eq_append_right.mp (congrArg State.trace hsame))

/-! The whole run (R178) -/

/-- What iterations one after the other write. -/
def State.afterIterations (xs : List IterationInput) (cp : Bool) (ev : KeyEvent) (m : Nat) (rest : List Bool)
    (s : State) : State :=
  { s with
    cp := cp
    ev := ev
    mi := m
    last := iterationsLast s.desc s.last xs
    fb := iterationsFb s.desc s.last s.fb xs
    pinScript := rest
    trace := s.trace ++ iterationsTrace s.desc s.last s.fb xs }

theorem afterIterations_cons (x : IterationInput) (xs : List IterationInput) (cp cp' : Bool) (ev ev' : KeyEvent)
    (m m' : Nat) (rest' : List Bool) :
    (s.afterIteration x cp ev m rest).afterIterations xs cp' ev' m' rest' =
      s.afterIterations (x :: xs) cp' ev' m' rest' := by
  simp only [State.afterIterations, State.afterIteration, iterationsTrace, List.append_assoc]
  rfl

theorem reaches_afterIterations {xs : List IterationInput} (hs : IterationStart s)
    (hpin : s.pinScript = xs.flatMap IterationInput.answers) :
    ∃ cp ev m, Reaches s (s.afterIterations xs cp ev m []) := by
  induction xs generalizing s with
  | nil =>
    have hnil : s.pinScript = [] := hpin
    have hnone : s.afterIterations [] s.cp s.ev s.mi [] = s := by
      rw [State.afterIterations, iterationsTrace, List.append_nil, ← hnil]
      rfl
    exact ⟨s.cp, s.ev, s.mi, 0, congrArg _ hnone.symm⟩
  | cons x xs ih =>
    obtain ⟨cp, ev, m, hfirst⟩ := reaches_afterIteration hs hpin
    set t := s.afterIteration x cp ev m (xs.flatMap IterationInput.answers)
    obtain ⟨cp', ev', m', hrest⟩ := ih (s := t) ⟨hs.noReset, hs.ph, hs.sl, hs.sig, hs.dly⟩ rfl
    rw [afterIterations_cons] at hrest
    exact ⟨cp', ev', m', hfirst.trans hrest⟩

/-- The gate with Key1 released (R176). -/
theorem step_gate_released (hr : NoReset s) (hp : s.ph = .gate) (hpin : s.pinScript = false :: rest) :
    step s = .next { s with ph := .load, li := 0, pinScript := rest, trace := s.trace ++ [.sp .key1 false] } := by
  simp [step_noReset hr, phaseCycle_gate hp, phaseGate_eq, pinAnswer_cons s false rest hpin, hpin]

/-- Settles O37, by the gate's sample, the load of the table, and induction on the iterations. -/
theorem engineRunsItsProgram : Obligations.EngineRunsItsProgram := by
  intro mem tab xs hmem
  set s : State := { State.reset with store := mem, pinScript := false :: xs.flatMap IterationInput.answers }
  have hgate := step_gate_released (s := s) rfl rfl rfl
  set s₁ : State := { s with
    ph := .load, li := 0, pinScript := xs.flatMap IterationInput.answers, trace := s.trace ++ [.sp .key1 false] }
  obtain ⟨-, -, hload⟩ := legalStoreLoadsTheWholeTable s₁ tab rfl rfl rfl rfl hmem
  set s₂ : State := { s₁ with
    desc := tab, li := 5, ph := .scan, sl := 0, sig := #v[false, false, false], trace := s₁.trace ++ loadTrace tab }
  obtain ⟨cp, ev, m, hiter⟩ := reaches_afterIterations (s := s₂) ⟨rfl, rfl, rfl, rfl, rfl⟩ rfl
  obtain ⟨k, hrun⟩ := Reaches.head hgate (.trans ⟨_, hload⟩ hiter)
  exact ⟨k, _, hrun, rfl, rfl, rfl, rfl, rfl, rfl, rfl, rfl⟩

/-! One refresh an iteration (R191) -/

theorem wdr_notMem_delayTrace (ms : Nat) : .wdr ∉ delayTrace ms := by
  unfold delayTrace
  split <;> simp

theorem wdr_notMem_macroTrace (codes : List Byte) : .wdr ∉ macroTrace codes := by
  simp [macroTrace, macroStepTrace, wdr_notMem_delayTrace]

theorem wdr_notMem_dispatchTrace (d : Instr) (ev : KeyEvent) : .wdr ∉ dispatchTrace d ev := by
  cases d with
  | kbd m c => cases ev <;> simp [dispatchTrace]
  | cons k => cases ev <;> simp [dispatchTrace]
  | macroSeq codes => cases ev <;> simp [dispatchTrace, wdr_notMem_macroTrace]

theorem wdr_notMem_onSample (d : Instr) (last p : Bool) : .wdr ∉ (onSample d last p).events := by
  by_cases h : p = last
  · simp [h, onSample_same]
  · have hcool : .wdr ∉ cooldownTrace d (edgeEvent p) := by
      unfold cooldownTrace
      split <;> simp
    simp [onSample_edge d h, wdr_notMem_dispatchTrace, hcool]

theorem wdr_notMem_keyTrace (desc : Vector Instr Config.nSlots) (last keys : Vector Bool Config.nKeys)
    (k : Fin Config.nKeys) : .wdr ∉ keyTrace desc last keys k := by
  simp [keyTrace, keyResult, wdr_notMem_onSample]

theorem wdr_notMem_knobTrace (desc : Vector Instr Config.nSlots) (x : Option Detent) : .wdr ∉ knobTrace desc x := by
  cases x with
  | none => simp [knobTrace]
  | some d => simp [knobTrace, wdr_notMem_dispatchTrace, wdr_notMem_delayTrace]

theorem count_wdr_iterationTrace (desc : Vector Instr Config.nSlots) (last : Vector Bool Config.nKeys)
    (fb : Vector Byte Config.nFb) (x : IterationInput) : (iterationTrace desc last fb x).count .wdr = 1 := by
  have hkey := fun k => List.count_eq_zero.mpr (wdr_notMem_keyTrace desc last x.keys k)
  have hknob := List.count_eq_zero.mpr (wdr_notMem_knobTrace desc x.knob)
  have hdelay := List.count_eq_zero.mpr (wdr_notMem_delayTrace Config.tLoop)
  simp [iterationTrace, hkey, hknob, hdelay, ledEvent]

/-- Settles O39: the last event is the one refresh, and the sum is that of the components. -/
theorem iterationDelaySumIsBounded : Obligations.IterationDelaySumIsBounded := fun desc last fb x hdesc =>
  ⟨count_wdr_iterationTrace desc last fb x, traceMs_iterationTrace_le hdesc last fb x⟩

end Sys2Proof.Machine
end

section
/-! SUPPORT. Where a cycle stops, and that a legal state stops nowhere (O45). -/

namespace Sys2Proof.Machine

variable {s : State}

/-- The register combinations in which a cycle has no rule to follow, and the stop each leads to (log 6, log 11). -/
def CycleStops (s : State) (f : Fault) : Prop :=
  (s.ph = .load ∧ f = .storeAddressAbsent (loadAddress s) ∧ Config.cfgBytes ≤ loadAddress s) ∨
  ((s.ph = .scan ∨ s.ph = .commit ∨ s.ph = .next) ∧ f = .slotHasNoKey ∧ Config.nKeys ≤ s.sl.val) ∨
  (s.ph.dispatching = true ∧ s.ph ≠ .done ∧ DispatchStops s.descriptor s f)

theorem keyOf_eq_none_iff {i : Fin Config.nSlots} : keyOf i = none ↔ Config.nKeys ≤ i.val := by
  simp [keyOf]

/-! The phases other than a dispatch that can stop -/

theorem phaseLoad_fault_iff (s : State) (f : Fault) :
    phaseLoad s = .fault f ↔ f = .storeAddressAbsent (loadAddress s) ∧ Config.cfgBytes ≤ loadAddress s := by
  unfold phaseLoad
  obtain ⟨ha, e⟩ | ⟨ha, e⟩ := storeRead_cases (loadAddress s) s <;> rw [e]
  · simp [Nat.not_le_of_lt ha]
  · simp [ha, eq_comm]

theorem phaseScan_fault_iff (s : State) (f : Fault) :
    phaseScan s = .fault f ↔ f = .slotHasNoKey ∧ Config.nKeys ≤ s.sl.val := by
  rw [← keyOf_eq_none_iff, phaseScan]
  cases keyOf s.sl <;> simp [eq_comm (a := f)]

theorem phaseCommit_fault_iff (s : State) (f : Fault) :
    phaseCommit s = .fault f ↔ f = .slotHasNoKey ∧ Config.nKeys ≤ s.sl.val := by
  rw [← keyOf_eq_none_iff, phaseCommit]
  cases keyOf s.sl <;> simp [eq_comm (a := f)]

theorem phaseNext_fault_iff (s : State) (f : Fault) :
    phaseNext s = .fault f ↔ f = .slotHasNoKey ∧ Config.nKeys ≤ s.sl.val := by
  unfold phaseNext
  split
  · have : ¬ Config.nKeys ≤ s.sl.val := by omega
    simp [this]
  · split
    · have : ¬ Config.nKeys ≤ s.sl.val := by omega
      simp [this]
    · have : Config.nKeys ≤ s.sl.val := by omega
      simp [this, eq_comm]

/-! One cycle -/

theorem phaseCycle_fault_iff (s : State) (f : Fault) : phaseCycle s = .fault f ↔ CycleStops s f := by
  unfold CycleStops
  cases hp : s.ph
  case load => simp [phaseCycle_load hp, phaseLoad_fault_iff, Phase.dispatching]
  case scan => simp [phaseCycle_scan hp, phaseScan_fault_iff, Phase.dispatching]
  case commit => simp [phaseCycle_commit hp, phaseCommit_fault_iff, Phase.dispatching]
  case next => simp [phaseCycle_next hp, phaseNext_fault_iff, Phase.dispatching]
  case act | act2 | mDown | mW1 | mUp | mW2 =>
    rw [phaseCycle_dispatch (by rw [hp]; rfl) (by rw [hp]; nofun), exec_fault_iff]
    simp [Phase.dispatching]
  all_goals simp [phaseCycle, hp, Phase.dispatching]

theorem phaseCycle_ne_refused (s : State) (r : Refusal) : phaseCycle s ≠ .refused r := by
  cases hp : s.ph
  case load => rw [phaseCycle_load hp, phaseLoad]; split <;> simp
  case scan => rw [phaseCycle_scan hp, phaseScan]; split <;> simp
  case commit => rw [phaseCycle_commit hp, phaseCommit]; split <;> simp
  case next =>
    rw [phaseCycle_next hp, phaseNext]
    split
    · simp
    · split <;> simp
  case act | act2 | mDown | mW1 | mUp | mW2 =>
    rw [phaseCycle_dispatch (by rw [hp]; rfl) (by rw [hp]; nofun)]
    exact exec_ne_refused _ s r
  all_goals simp [phaseCycle, hp]

/-! The rules' states (45_main_loop.md R182, R183) -/

theorem State.Legal.not_dispatchStops (h : s.Legal) (hd : s.ph.dispatching = true) (hn : s.ph ≠ .done) (f : Fault) :
    ¬ DispatchStops s.descriptor s f := by
  rintro (⟨-, ⟨hp, hrow⟩ | ⟨hm, hk⟩⟩ | ⟨-, -, ⟨hp, hmi⟩ | ⟨hp, hmi⟩⟩ | ⟨-, hp | hp⟩)
  · obtain ⟨hev, hk⟩ := h.act2_row hp
    exact hrow.elim (absurd hev) hk
  · exact hk (h.macro_row hm).1
  · exact Nat.not_le_of_lt hmi (h.mi_le hp)
  · exact Nat.not_lt_of_le hmi (h.mi_lt (.inr (.inl hp)))
  · exact Bool.false_ne_true (hp.symm.trans hd)
  · exact hn hp

theorem State.Legal.not_cycleStops (h : s.Legal) (f : Fault) : ¬ CycleStops s f := by
  rintro (⟨-, -, ha⟩ | ⟨hp, -, hsl⟩ | ⟨hd, hn, hs⟩)
  · exact Nat.not_lt_of_le ha (loadAddress_lt (length_of_decode_needMore h.buf_open))
  · have hkey : s.ph.ofKey = true := by rcases hp with hp | hp | hp <;> rw [hp] <;> rfl
    exact Nat.not_lt_of_le hsl (h.key_slot hkey)
  · exact h.not_dispatchStops hd hn f hs

/-- Settles O45: a reset goes on, and so does a cycle, which no rule stops. -/
theorem legalStatesAlwaysGoOn : Obligations.LegalStatesAlwaysGoOn := by
  intro s h
  cases hr : rstNow s with
  | true => exact ⟨_, step_reset hr⟩
  | false =>
    rw [step_low hr]
    cases hc : phaseCycle (passEdge s) with
    | next t => exact ⟨t, rfl⟩
    | fault f => exact absurd ((phaseCycle_fault_iff _ f).1 hc) (h.not_cycleStops f)
    | refused r => exact absurd hc (phaseCycle_ne_refused _ r)

end Sys2Proof.Machine
end

section
/-! SUPPORT. What a cycle does to the error flag (O52). -/

namespace Sys2Proof.Machine

variable {s t : State}

/-- Whatever neither a wait's counting and event nor leaving the phase change, a cycle of the wait does not change. -/
theorem delayCycle_keeps {α : Type} (g : State → α) (ms : Nat) {leave : State → State} (s : State)
    (hg : ∀ (u : State) d tr, g { u with dly := d, trace := tr } = g u) (hl : ∀ u, g (leave u) = g u) :
    g (delayCycle ms leave s) = g s := by
  rw [delayCycle_eq]
  split
  · rw [hl, hg]
  · rw [hg]

theorem waitPhase_keeps {α : Type} (g : State → α) (ms : Nat) {leave next : State → State} (s : State)
    (hg : ∀ (u : State) d tr, g { u with dly := d, trace := tr } = g u) (hl : ∀ u, g (leave u) = g u)
    (hn : ∀ u, g (next u) = g u) : g (waitPhase ms leave next s) = g s := by
  obtain ⟨-, h⟩ | ⟨-, h⟩ := waitPhase_cases ms leave next s <;> rw [h]
  · rw [hn, hl]
  · exact delayCycle_keeps g ms s hg hl

/-- The error flag comes up: `ConfigDecodeError` is taken (60_exceptions.md R200, R201, R204). -/
structure TakesError (s t : State) : Prop where
  load : s.ph = .load
  fault : t.ph = .fault
  flag : t.cfgErr = true
  record : t.err.legal
  desc : t.desc = s.desc

/-- A record's number fits the three bits of its field in `ERR` (R201). -/
theorem toNat_recordIndex_le (i : Fin Config.nSlots) : (BitVec.ofNat 3 i.val).toNat ≤ 5 := by
  have hi : i.val < 6 := i.isLt
  rw [BitVec.toNat_ofNat]
  omega

theorem loadDecoded_error (got : List Byte) (hp : s.ph = .load) :
    (loadDecoded got s).cfgErr = s.cfgErr ∨ TakesError s (loadDecoded got s) := by
  obtain ⟨-, e⟩ | ⟨d, i, -, -, e⟩ | ⟨d, -, -, e⟩ | ⟨b, hd, e⟩ | ⟨n, hd, e⟩ := loadDecoded_cases got s <;> rw [e]
  · exact .inl rfl
  · exact .inl rfl
  · exact .inl rfl
  · exact .inr ⟨hp, rfl, rfl, ⟨toNat_recordIndex_le s.li, .inl ⟨rfl, three_le_of_decode_badTag hd, rfl⟩⟩, rfl⟩
  · exact .inr ⟨hp, rfl, rfl, ⟨toNat_recordIndex_le s.li, .inr ⟨rfl, rfl, eleven_le_of_decode_badMacroLength hd⟩⟩, rfl⟩

theorem exec_cfgErr {i : Instr} (h : exec i s = .next t) : t.cfgErr = s.cfgErr := by
  obtain ⟨p, m, d, added, rfl, -⟩ := exec_dispatchWrites h
  rfl

/-- Everything one cycle can do to the error flag. -/
theorem phaseCycle_error (h : phaseCycle s = .next t) : t.cfgErr = s.cfgErr ∨ TakesError s t := by
  obtain ⟨-, rfl⟩ | ⟨-, rfl⟩ | ⟨-, rfl⟩ | ⟨hp, -, rfl⟩ | ⟨-, k, -, rfl⟩ | ⟨-, -, he⟩ | ⟨-, rfl⟩ | ⟨-, rfl⟩ |
    ⟨-, k, -, rfl⟩ | ⟨-, i, -, -, rfl⟩ | ⟨-, -, rfl⟩ | ⟨-, rfl⟩ | ⟨-, rfl⟩ | ⟨-, rfl⟩ | ⟨-, rfl⟩ | ⟨-, rfl⟩ |
    ⟨-, rfl⟩ | ⟨-, rfl⟩ := phaseCycle_cases h
  case inr.inr.inr.inl =>
    obtain hkeep | ⟨_, hf, hflag, hrec, hdesc⟩ := loadDecoded_error (s := s.log _) _ hp
    · exact .inl hkeep
    · exact .inr ⟨hp, hf, hflag, hrec, hdesc⟩
  all_goals left
  · rfl
  · rfl
  · rfl
  · cases edgeOf s.last[k] (pinAnswer s) <;> rfl
  · exact exec_cfgErr he
  · rfl
  · exact delayCycle_keeps State.cfgErr _ s (fun _ _ _ => rfl) fun _ => rfl
  · rfl
  · rfl
  · rfl
  · rfl
  · rfl
  · exact waitPhase_keeps State.cfgErr _ s (fun _ _ _ => rfl) (fun _ => rfl) fun _ => rfl
  · rfl
  · rfl
  · exact waitPhase_keeps State.cfgErr _ s (fun _ _ _ => rfl) (fun _ => rfl) fun _ => rfl
  · rfl

/-- Settles O52: a cycle keeps the flag or takes the exception. -/
theorem errorFlagIsSticky : Obligations.ErrorFlagIsSticky := by
  intro s t hr h
  rw [step_low hr] at h
  obtain hkeep | ⟨hp, hf, hflag, hrec, hdesc⟩ := phaseCycle_error h
  · exact ⟨hkeep.trans, fun hs ht => absurd (hkeep.symm.trans ht) (by simp [hs])⟩
  · exact ⟨fun _ => hflag, fun _ _ => ⟨hp, hf, hrec, hdesc⟩⟩

end Sys2Proof.Machine
end

section
/-! SUPPORT. Only a sample looks at the environment (O48): a cycle without one commutes with other answers, and a cycle
with one with other answers that begin alike. -/

namespace Sys2Proof.Machine

variable {s t : State}

/-- The state in another environment, with other answers to come (log 7). -/
def State.answering (pins : List Bool) (draws : Nat) (s : State) : State :=
  { s with pinScript := pins, pinDraws := draws }

/-- A cycle from `s` to `t` that samples no pin: no `SP` joins the trace, and in any other environment the cycle is the
same. -/
structure SamplesNone (cycle : State → Host.Outcome State Fault Refusal) (s t : State) : Prop where
  trace : ∃ added, t.trace = s.trace ++ added ∧ ∀ p b, PortEvent.sp p b ∉ added
  same : ∀ pins draws, cycle (s.answering pins draws) = .next (t.answering pins draws)

/-- A cycle from `s` to `t` that samples one pin: its answer is in the trace, and in any environment with the same next
answer the cycle is the same. -/
structure SamplesOne (s t : State) : Prop where
  trace : ∃ p, t.trace = s.trace ++ [.sp p (pinAnswer s)]
  rest : t.pinScript = s.pinScript.tail
  same : ∀ pins draws, pinAnswer (s.answering pins draws) = pinAnswer s →
    phaseCycle (s.answering pins draws) = .next (t.answering pins.tail (if pins = [] then draws + 1 else draws))

section SampleFree

variable {cycle : State → Host.Outcome State Fault Refusal}

theorem SamplesNone.of_silent (htr : t.trace = s.trace)
    (same : ∀ pins draws, cycle (s.answering pins draws) = .next (t.answering pins draws)) : SamplesNone cycle s t :=
  ⟨⟨[], by rw [htr, List.append_nil], fun _ _ => List.not_mem_nil⟩, same⟩

theorem SamplesNone.of_event {e : PortEvent} (htr : t.trace = s.trace ++ [e]) (he : ∀ p b, e ≠ .sp p b)
    (same : ∀ pins draws, cycle (s.answering pins draws) = .next (t.answering pins draws)) : SamplesNone cycle s t :=
  ⟨⟨[e], htr, fun p b hmem => he p b (List.mem_singleton.mp hmem).symm⟩, same⟩

theorem delayEvents_samples_none (ms : Nat) (s : State) (p : Pin) (b : Bool) : .sp p b ∉ delayEvents ms s := by
  unfold delayEvents
  split <;> simp

theorem delayCycle_answering (ms : Nat) {leave : State → State} (pins : List Bool) (draws : Nat) (s : State)
    (hl : ∀ u : State, leave (u.answering pins draws) = (leave u).answering pins draws) :
    delayCycle ms leave (s.answering pins draws) = (delayCycle ms leave s).answering pins draws := by
  rw [delayCycle_eq, delayCycle_eq, apply_ite (State.answering pins draws), ← hl]
  rfl

/-- A cycle that is one of a wait. -/
theorem SamplesNone.of_delayCycle {ms : Nat} {leave : State → State}
    (hl : ∀ (u : State) pins draws, leave (u.answering pins draws) = (leave u).answering pins draws)
    (htr : ∀ u : State, (leave u).trace = u.trace)
    (hc : ∀ pins draws,
      cycle (s.answering pins draws) = .next (delayCycle ms leave (s.answering pins draws))) :
    SamplesNone cycle s (delayCycle ms leave s) := by
  refine ⟨⟨delayEvents ms s, ?_, delayEvents_samples_none ms s⟩, fun pins draws => ?_⟩
  · rw [delayCycle_eq]
    split
    · rw [htr]
    · rfl
  · rw [hc, delayCycle_answering ms pins draws s fun u => hl u pins draws]

end SampleFree

/-! The dispatch of one descriptor -/

theorem pulseDispatch_samplesNone {down up : PortEvent} (hdown : ∀ p b, down ≠ .sp p b) (hup : ∀ p b, up ≠ .sp p b)
    (h : pulseDispatch down up s = .next t) : SamplesNone (pulseDispatch down up) s t := by
  obtain ⟨hp, he, rfl⟩ | ⟨hp, he, rfl⟩ | ⟨hp, he, rfl⟩ | ⟨hp, he, rfl⟩ := pulseDispatch_next h
  · exact .of_event rfl hdown fun _ _ => pulseDispatch_press hp he
  · exact .of_event rfl hup fun _ _ => pulseDispatch_release hp he
  · exact .of_event rfl hdown fun _ _ => pulseDispatch_trigger hp he
  · exact .of_event rfl hup fun _ _ => pulseDispatch_act2 hp he

theorem macroAct_trace (s : State) : (macroAct s).trace = s.trace := by
  unfold macroAct
  split <;> rfl

theorem macroAct_answering (pins : List Bool) (draws : Nat) (s : State) :
    macroAct (s.answering pins draws) = (macroAct s).answering pins draws := by
  rw [macroAct, macroAct, show (s.answering pins draws).ev = s.ev from rfl]
  cases s.ev <;> rfl

theorem execMacroSeq_samplesNone {codes : List Byte} (h : execMacroSeq codes s = .next t) :
    SamplesNone (execMacroSeq codes) s t := by
  obtain ⟨hp, rfl⟩ | ⟨hp, c, hc, rfl⟩ | ⟨hp, hm, rfl⟩ | ⟨hp, rfl⟩ | ⟨hp, c, hc, rfl⟩ | ⟨hp, rfl⟩ := execMacroSeq_next h
  · exact .of_silent (macroAct_trace s) fun pins draws =>
      (execMacroSeq_act (s := s.answering pins draws) hp).trans (congrArg _ (macroAct_answering pins draws s))
  · exact .of_event rfl nofun fun _ _ => execMacroSeq_mDown_code hp hc
  · exact .of_silent rfl fun _ _ => execMacroSeq_mDown_end hp hm
  · exact .of_delayCycle (fun _ _ _ => rfl) (fun _ => rfl) fun _ _ => execMacroSeq_mW1 hp
  · exact .of_event rfl nofun fun _ _ => execMacroSeq_mUp hp hc
  · exact .of_delayCycle (fun _ _ _ => rfl) (fun _ => rfl) fun _ _ => execMacroSeq_mW2 hp

theorem exec_samplesNone {i : Instr} (h : exec i s = .next t) : SamplesNone (exec i) s t := by
  cases i with
  | kbd m c => exact pulseDispatch_samplesNone nofun nofun h
  | cons k => exact pulseDispatch_samplesNone nofun nofun h
  | macroSeq codes => exact execMacroSeq_samplesNone h

theorem dispatch_samplesNone (hd : s.ph.dispatching = true) (hn : s.ph ≠ .done) (h : exec s.descriptor s = .next t) :
    SamplesNone phaseCycle s t := by
  obtain ⟨htr, same⟩ := exec_samplesNone h
  exact ⟨htr, fun pins draws => (phaseCycle_dispatch (s := s.answering pins draws) hd hn).trans (same pins draws)⟩

/-! The load -/

theorem loadDecoded_answering (got : List Byte) (pins : List Bool) (draws : Nat) (s : State) :
    loadDecoded got (s.answering pins draws) = (loadDecoded got s).answering pins draws := by
  cases hd : decode got with
  | done d =>
    rw [loadDecoded_done hd, loadDecoded_done hd, afterRecord, afterRecord,
      show (s.answering pins draws).li = s.li from rfl]
    dsimp only
    cases slotAfter s.li <;> rfl
  | needMore => simp only [loadDecoded, hd]; rfl
  | badTag b => simp only [loadDecoded, hd]; rfl
  | badMacroLength n => simp only [loadDecoded, hd]; rfl

theorem phaseCycle_load_read (hp : s.ph = .load) (ha : loadAddress s < Config.cfgBytes) :
    phaseCycle s = .next (loadDecoded (s.recBuf ++ [s.store.read (loadAddress s)])
      (s.log (.rb (loadAddress s) (s.store.read (loadAddress s))))) := by
  rw [phaseCycle_load hp, phaseLoad, storeRead_of_lt ha]

theorem load_samplesNone (hp : s.ph = .load) (ha : loadAddress s < Config.cfgBytes) :
    SamplesNone phaseCycle s (loadDecoded (s.recBuf ++ [s.store.read (loadAddress s)])
      (s.log (.rb (loadAddress s) (s.store.read (loadAddress s))))) := by
  obtain ⟨htr, -⟩ := loadDecoded_frame (s.recBuf ++ [s.store.read (loadAddress s)])
    (s.log (.rb (loadAddress s) (s.store.read (loadAddress s))))
  refine .of_event htr nofun fun pins draws => ?_
  rw [← loadDecoded_answering]
  exact phaseCycle_load_read (s := s.answering pins draws) hp ha

/-! The other phases without a sample -/

theorem commit_samplesNone {k : Fin Config.nKeys} (hp : s.ph = .commit) (hk : keyOf s.sl = some k) :
    SamplesNone phaseCycle s { s with
      last := s.last.set k.val s.cp k.isLt
      sig := if s.cp then signalled s.sl s.sig else s.sig
      ph := .next } := by
  refine .of_silent rfl fun pins draws => ?_
  have hk' : keyOf (s.answering pins draws).sl = some k := hk
  rw [phaseCycle_commit (s := s.answering pins draws) hp, phaseCommit, hk']
  rfl

theorem phaseNext_key {i : Fin Config.nSlots} (hi : i.val < 4) (hs : i.val = s.sl.val + 1) :
    phaseNext s = .next { s with sl := i, ph := .scan } := by
  obtain ⟨n, hn⟩ := i
  subst hs
  exact dif_pos hi

theorem phaseNext_knob (hs : s.sl.val = 3) : phaseNext s = .next { s with ph := .knobA } := by
  simp [phaseNext, hs, State.goto]

theorem next_key_samplesNone {i : Fin Config.nSlots} (hp : s.ph = .next) (hi : i.val < 4) (hs : i.val = s.sl.val + 1) :
    SamplesNone phaseCycle s { s with sl := i, ph := .scan } :=
  .of_silent rfl fun pins draws =>
    (phaseCycle_next (s := s.answering pins draws) hp).trans (phaseNext_key hi hs)

theorem next_knob_samplesNone (hp : s.ph = .next) (hs : s.sl.val = 3) :
    SamplesNone phaseCycle s { s with ph := .knobA } :=
  .of_silent rfl fun pins draws =>
    (phaseCycle_next (s := s.answering pins draws) hp).trans (phaseNext_knob hs)

/-- The cycle of a waiting phase is one of its wait, or with no time to wait the next phase's. -/
theorem waitPhase_samples (ms : Nat) (leave next : State → State)
    (hl : ∀ (u : State) pins draws, leave (u.answering pins draws) = (leave u).answering pins draws)
    (htr : ∀ u : State, (leave u).trace = u.trace)
    (hc : ∀ pins draws,
      phaseCycle (s.answering pins draws) = .next (waitPhase ms leave next (s.answering pins draws))) :
    SamplesNone phaseCycle s (waitPhase ms leave next s) ∨
    waitPhase ms leave next s = next (leave s) ∧
      ∀ pins draws, phaseCycle (s.answering pins draws) = .next (next (leave (s.answering pins draws))) := by
  obtain ⟨h0, e⟩ | ⟨hpos, e⟩ := waitPhase_cases ms leave next s
  · subst h0
    exact .inr ⟨e, hc⟩
  · rw [e]
    exact .inl (.of_delayCycle hl htr fun pins draws =>
      (hc pins draws).trans (congrArg _ (waitPhase_pos leave next _ hpos)))

theorem endDly_samplesNone (hp : s.ph = .endDly) : SamplesNone phaseCycle s (phaseEndDly s) := by
  obtain h | ⟨e, hc⟩ := waitPhase_samples Config.tLoop (State.goto .wdr) phaseWdr (fun _ _ _ => rfl) (fun _ => rfl)
    fun pins draws => phaseCycle_endDly (s := s.answering pins draws) hp
  · exact h
  · rw [phaseEndDly, e]
    exact .of_event (e := .wdr) rfl nofun hc

/-! The phases with a sample -/

/-- The same next answer leaves the same state, but for the answers after it. -/
theorem takeSample_answering {pins : List Bool} {draws : Nat} (p : Pin)
    (h : pinAnswer (s.answering pins draws) = pinAnswer s) :
    takeSample p (s.answering pins draws) =
      (takeSample p s).answering pins.tail (if pins = [] then draws + 1 else draws) := by
  rw [takeSample, h, drawsAfterSample]
  rfl

theorem gate_samplesOne (hp : s.ph = .gate) : SamplesOne s (phaseGate s) := by
  refine ⟨⟨_, rfl⟩, rfl, fun pins draws h => ?_⟩
  rw [phaseCycle_gate (s := s.answering pins draws) hp, phaseGate, h, takeSample_answering _ h]
  rfl

theorem scan_samplesOne {k : Fin Config.nKeys} (hp : s.ph = .scan) (hk : keyOf s.sl = some k) :
    SamplesOne s
      (scanEdge (edgeOf s.last[k] (pinAnswer s)) { takeSample (keyPin k) s with cp := pinAnswer s }) := by
  refine ⟨⟨keyPin k, ?_⟩, ?_, fun pins draws h => ?_⟩
  · cases edgeOf s.last[k] (pinAnswer s) <;> rfl
  · cases edgeOf s.last[k] (pinAnswer s) <;> rfl
  · have hk' : keyOf (s.answering pins draws).sl = some k := hk
    rw [phaseCycle_scan (s := s.answering pins draws) hp, phaseScan, hk']
    simp only [h, takeSample_answering _ h, show (s.answering pins draws).last = s.last from rfl]
    cases edgeOf s.last[k] (pinAnswer s) <;> rfl

theorem knobA_samplesOne (hp : s.ph = .knobA) : SamplesOne s (phaseKnobA s) := by
  refine ⟨⟨_, rfl⟩, rfl, fun pins draws h => ?_⟩
  rw [phaseCycle_knobA (s := s.answering pins draws) hp, phaseKnobA, h, takeSample_answering _ h]
  rfl

theorem knobB_samplesOne (hp : s.ph = .knobB) : SamplesOne s (phaseKnobB s) := by
  refine ⟨⟨_, rfl⟩, rfl, fun pins draws h => ?_⟩
  rw [phaseCycle_knobB (s := s.answering pins draws) hp, phaseKnobB, h, takeSample_answering _ h]
  rfl

/-- A poll of `K_WAIT`, in the phase itself or at the end of a settle of no time. -/
theorem poll_samplesOne
    (hc : ∀ pins draws, phaseCycle (s.answering pins draws) = .next (phaseKWait (s.answering pins draws))) :
    SamplesOne s (phaseKWait s) := by
  refine ⟨⟨_, rfl⟩, rfl, fun pins draws h => ?_⟩
  rw [hc, phaseKWait, h, takeSample_answering _ h]
  rfl

theorem kSettle_samples (hp : s.ph = .kSettle) :
    SamplesNone phaseCycle s (phaseKSettle s) ∨ SamplesOne s (phaseKSettle s) := by
  obtain h | ⟨e, hc⟩ := waitPhase_samples Config.tSettle (State.goto .kWait) phaseKWait (fun _ _ _ => rfl) (fun _ => rfl)
    fun pins draws => phaseCycle_kSettle (s := s.answering pins draws) hp
  · exact .inl h
  · rw [phaseKSettle, e]
    exact .inr (poll_samplesOne hc)

/-! One cycle -/

/-- Every cycle that goes on samples no pin or one. -/
theorem phaseCycle_samples (h : phaseCycle s = .next t) : SamplesNone phaseCycle s t ∨ SamplesOne s t := by
  obtain ⟨hp, rfl⟩ | ⟨hp, rfl⟩ | ⟨hp, rfl⟩ | ⟨hp, ha, rfl⟩ | ⟨hp, k, hk, rfl⟩ | ⟨hd, hn, he⟩ | ⟨hp, rfl⟩ | ⟨hp, rfl⟩ |
    ⟨hp, k, hk, rfl⟩ | ⟨hp, i, hi, hs, rfl⟩ | ⟨hp, hs, rfl⟩ | ⟨hp, rfl⟩ | ⟨hp, rfl⟩ | ⟨hp, rfl⟩ | ⟨hp, rfl⟩ |
    ⟨hp, rfl⟩ | ⟨hp, rfl⟩ | ⟨hp, rfl⟩ := phaseCycle_cases h
  · exact .inr (gate_samplesOne hp)
  · exact .inl (.of_event rfl nofun fun _ _ => phaseCycle_bootReq hp)
  · exact .inl (.of_silent rfl fun pins draws =>
      hp.elim (phaseCycle_boot (s := t.answering pins draws)) (phaseCycle_fault (s := t.answering pins draws)))
  · exact .inl (load_samplesNone hp ha)
  · exact .inr (scan_samplesOne hp hk)
  · exact .inl (dispatch_samplesNone hd hn he)
  · exact .inl (.of_silent rfl fun _ _ => phaseCycle_done hp)
  · exact .inl (.of_delayCycle (fun _ _ _ => rfl) (fun _ => rfl) fun _ _ => phaseCycle_cool hp)
  · exact .inl (commit_samplesNone hp hk)
  · exact .inl (next_key_samplesNone hp hi hs)
  · exact .inl (next_knob_samplesNone hp hs)
  · exact .inr (knobA_samplesOne hp)
  · exact .inr (knobB_samplesOne hp)
  · exact kSettle_samples hp
  · exact .inr (poll_samplesOne fun _ _ => phaseCycle_kWait hp)
  · exact .inl (.of_event rfl nofun fun _ _ => phaseCycle_feed hp)
  · exact .inl (endDly_samplesNone hp)
  · exact .inl (.of_event rfl nofun fun _ _ => phaseCycle_wdr hp)

/-- A cycle without a sample leaves the environment as it is: it is its own cycle in the state's own environment. -/
theorem SamplesNone.keeps_environment (w : SamplesNone phaseCycle s t) (h : phaseCycle s = .next t) :
    t.pinScript = s.pinScript ∧ t.pinDraws = s.pinDraws := by
  have hown : phaseCycle s = .next (t.answering s.pinScript s.pinDraws) := w.same s.pinScript s.pinDraws
  have ht : t = t.answering s.pinScript s.pinDraws := Host.Outcome.next.inj (h.symm.trans hown)
  rw [ht]
  exact ⟨rfl, rfl⟩

theorem SamplesNone.ne_sample (w : SamplesNone phaseCycle s t) (p : Pin) (b : Bool) : t.trace ≠ s.trace ++ [.sp p b] := by
  obtain ⟨added, htr, hnone⟩ := w.trace
  intro h
  obtain rfl : added = [.sp p b] := List.append_cancel_left (htr.symm.trans h)
  exact hnone p b (List.mem_singleton_self _)

/-- Settles O48: where a cycle stops the environment does not matter, and one that goes on samples no pin or one. -/
theorem pinsAreReadOnlyBySampling : Obligations.PinsAreReadOnlyBySampling := by
  intro s pins draws hr u
  have hu : step u = phaseCycle ((passEdge s).answering pins draws) := step_low (s := u) hr
  rw [hu, step_low hr]
  refine ⟨fun f hf => ?_, fun t ht => ?_⟩
  · have hstop : CycleStops (passEdge s) f := (phaseCycle_fault_iff _ f).1 hf
    exact (phaseCycle_fault_iff _ f).2 hstop
  · obtain hnone | ⟨htr, hrest, hsame⟩ := phaseCycle_samples ht
    · obtain ⟨hscript, hdraws⟩ := hnone.keeps_environment ht
      exact .inl ⟨hnone.same pins draws, hscript, hdraws, hnone.ne_sample⟩
    · exact .inr ⟨htr, hrest, hsame pins draws⟩

end Sys2Proof.Machine
end

section
/-! SUPPORT. A clock edge with `rst` high (O42): the vectors of the reset state, entry by entry. -/

namespace Sys2Proof.Machine

theorem reset_last : State.reset.last = #v[false, false, false, false] := rfl

theorem reset_sig : State.reset.sig = #v[false, false, false] := rfl

theorem reset_fb : State.reset.fb = #v[Config.fbFloor, Config.fbFloor, Config.fbFloor] := rfl

/-- Settles O42: the edge gives the reset state, but for the store and the environment, which neither the edge nor the
reset changes. -/
theorem resetAbandonsEverything : Obligations.ResetAbandonsEverything := by
  intro s hr
  refine ⟨takeReset (passEdge s), step_reset hr, takeReset_ph _, takeReset_li _, takeReset_sl _, takeReset_dly _, ?last,
    ?sig, ?fb, takeReset_cfgErr _, takeReset_trace _, ?store, ?pins, ?rst⟩
  case last => exact (takeReset_last _).trans reset_last
  case sig => exact (takeReset_sig _).trans reset_sig
  case fb => exact (takeReset_fb _).trans reset_fb
  case store => exact (takeReset_store _).trans (passEdge_store s)
  case pins => exact (takeReset_pinScript _).trans (passEdge_pinScript s)
  case rst => exact (takeReset_rstScript _).trans (passEdge_rstScript s)

end Sys2Proof.Machine
end

section
/-! SUPPORT. Legality is an invariant (O43, O44): the reset state is legal, and a step of a legal state leads to one. A
move between phases is checked in two parts: what every phase carries along, and the rows of the phase it enters. -/

namespace Sys2Proof.Machine

variable {s t : State}

/-! The reset state -/

/-- Settles O43: no row speaks of `GATE`, and every channel is at the floor. -/
theorem resetStateIsLegal : Obligations.ResetStateIsLegal where
  store_wf := reset_store_wf
  desc_wf i := by simp [State.reset, Instr.wellFormed]
  key_slot := nofun
  event_slot := nofun
  act2_row := nofun
  macro_row := nofun
  mi_le := nofun
  mi_lt := nofun
  mi_range := Nat.zero_le _
  pending := nofun
  dly_lt := Nat.zero_le _
  fb_range c := by simpa [State.reset] using fbFloor_le_fbMax
  buf_empty _ := rfl
  buf_open := rfl
  err_phase := by simp [State.reset]
  err_legal := nofun

/-- A clock edge with `rst` high keeps the store's form and has the reset values otherwise. -/
theorem State.Legal.after_takeReset (h : s.Legal) : (takeReset s).Legal :=
  { resetStateIsLegal with store_wf := h.store_wf }

/-! What no clause speaks of -/

theorem State.Legal.after_passEdge (h : s.Legal) : (passEdge s).Legal := { h with }

theorem State.Legal.after_log (h : s.Legal) (e : PortEvent) : (s.log e).Legal := { h with }

/-! Moves between phases -/

/-- Nothing is in progress that a move to another phase would cut off: no wait, no record half read, no error. -/
structure State.Calm (s : State) : Prop where
  dly : s.dly = 0
  recBuf : s.recBuf = []
  cfgErr : s.cfgErr = false

theorem State.Legal.dly_eq_zero (h : s.Legal) {p : Phase} (hp : s.ph = p) (hw : p.waitMs = 0) : s.dly = 0 := by
  subst hp
  simpa [hw] using h.dly_lt

theorem State.Legal.calm_of_dly (h : s.Legal) (h0 : s.dly = 0) {p : Phase} (hp : s.ph = p) (hl : p ≠ .load)
    (hf : p ≠ .fault) : s.Calm := by
  subst hp
  exact ⟨h0, h.buf_empty hl, Bool.eq_false_iff.2 (mt h.err_phase.1 hf)⟩

theorem State.Legal.calm (h : s.Legal) {p : Phase} (hp : s.ph = p) (hw : p.waitMs = 0) (hl : p ≠ .load)
    (hf : p ≠ .fault) : s.Calm :=
  h.calm_of_dly (h.dly_eq_zero hp hw) hp hl hf

/-- What a move between phases carries along. -/
def State.carried (s : State) : Memory × Vector Instr Config.nSlots × Vector Byte Config.nFb × Nat × List Byte × Bool :=
  (s.store, s.desc, s.fb, s.dly, s.recBuf, s.cfgErr)

/-- The clauses of legality about the phase a move enters: its slot, its row of the tables, and a key's pending edge. -/
structure State.InRow (s : State) : Prop where
  key_slot : s.ph.ofKey = true → s.sl.val < Config.nKeys
  event_slot : s.ph.dispatching = true → (s.ev = .trigger ↔ Config.nKeys ≤ s.sl.val)
  act2_row : s.ph = .act2 → s.ev = .trigger ∧ kindOf s.descriptor ≠ .macroKind
  macro_row : s.ph.inMacro = true → kindOf s.descriptor = .macroKind ∧ s.ev ≠ .release
  mi_le : s.ph = .mDown → s.mi ≤ codeCount s.descriptor
  mi_lt : s.ph = .mW1 ∨ s.ph = .mUp ∨ s.ph = .mW2 → s.mi < codeCount s.descriptor
  pending : s.ph.edgePending = true → ∀ k : Fin Config.nKeys, keyOf s.sl = some k →
    s.cp ≠ s.last[k] ∧ (s.cp = true ↔ s.ev = .press)

/-- A legal state moves to another phase: it is enough that the move fits the phase it enters. -/
theorem State.Legal.move (h : s.Legal) (hc : s.Calm) (k : t.carried = s.carried) (hf : t.ph ≠ .fault)
    (hmi : t.mi ≤ Config.macroMax) (row : t.InRow) : t.Legal := by
  simp only [State.carried, Prod.mk.injEq] at k
  obtain ⟨hstore, hdesc, hfb, hdly, hbuf, herr⟩ := k
  exact { row with
    store_wf := hstore ▸ h.store_wf
    desc_wf := hdesc ▸ h.desc_wf
    mi_range := hmi
    dly_lt := (hdly.trans hc.dly).trans_le (Nat.zero_le _)
    fb_range := hfb ▸ h.fb_range
    buf_empty := fun _ => hbuf.trans hc.recBuf
    buf_open := hbuf ▸ h.buf_open
    err_phase := by simp [herr, hc.cfgErr, hf]
    err_legal := by simp [herr, hc.cfgErr] }

theorem Phase.dispatching_of_inMacro {p : Phase} (h : p.inMacro = true) : p.dispatching = true := by
  cases p <;> simp_all [Phase.inMacro, Phase.dispatching]

theorem Phase.edgePending_of_dispatching {p : Phase} (h : p.dispatching = true) : p.edgePending = true := by
  cases p <;> simp_all [Phase.dispatching, Phase.edgePending]

/-- A phase in which no edge is pending asks for no more than a key slot. -/
theorem inRow_of_not_edgePending (hp : t.ph.edgePending = false) (hk : t.ph.ofKey = true → t.sl.val < Config.nKeys) :
    t.InRow := by
  have hnot : ¬ t.ph.edgePending = true := Bool.eq_false_iff.1 hp
  have hdisp : ¬ t.ph.dispatching = true := mt Phase.edgePending_of_dispatching hnot
  have hmacro : ¬ t.ph.inMacro = true := mt Phase.dispatching_of_inMacro hdisp
  refine ⟨hk, (absurd · hdisp), fun h => absurd ?_ hdisp, (absurd · hmacro), fun h => absurd ?_ hmacro,
    fun h => absurd ?_ hmacro, (absurd · hnot)⟩
  · rw [h]; rfl
  · rw [h]; rfl
  · rcases h with h | h | h <;> rw [h] <;> rfl

/-- A legal state moves to a phase in which no edge is pending. -/
theorem State.Legal.moveIdle (h : s.Legal) (hc : s.Calm) (k : t.carried = s.carried) (hmi : t.mi = s.mi)
    (hp : t.ph.edgePending = false) (hf : t.ph ≠ .fault) (hk : t.ph.ofKey = true → t.sl.val < Config.nKeys) : t.Legal :=
  h.move hc k hf (hmi ▸ h.mi_range) (inRow_of_not_edgePending hp hk)

/-! A cycle of a wait -/

theorem ticksLeft_le {ms : Nat} (h : s.dly ≤ ms * Config.ticksPerMs - 1) :
    ticksLeft ms s ≤ ms * Config.ticksPerMs - 1 := by
  unfold ticksLeft
  split <;> omega

/-- A cycle of a phase's wait leaves a legal state, if leaving the phase does. -/
theorem State.Legal.after_delayCycle {ms : Nat} {leave : State → State} (h : s.Legal) (hw : s.ph.waitMs = ms)
    (hleave : ∀ tr, State.Legal { s with dly := 0, trace := tr } → (leave { s with dly := 0, trace := tr }).Legal) :
    (delayCycle ms leave s).Legal := by
  subst hw
  rw [delayCycle_eq]
  split
  · exact hleave _ { h with dly_lt := Nat.zero_le _ }
  · exact { h with dly_lt := ticksLeft_le h.dly_lt }

/-- A phase that may wait no time leaves a legal state, if leaving it and the next phase's cycle do. -/
theorem State.Legal.after_waitPhase {ms : Nat} {leave next : State → State} (h : s.Legal) (hw : s.ph.waitMs = ms)
    (hleave : ∀ u : State, u.Legal → u.ph = s.ph → u.dly = 0 → (leave u).Legal)
    (hnext : ∀ u : State, (leave u).Legal → (next (leave u)).Legal) : (waitPhase ms leave next s).Legal := by
  obtain ⟨h0, e⟩ | ⟨-, e⟩ := waitPhase_cases ms leave next s <;> rw [e]
  · exact hnext s (hleave s h rfl (h.dly_eq_zero rfl (hw.trans h0)))
  · exact h.after_delayCycle hw fun tr hu => hleave _ hu rfl rfl

/-! The phases around a dispatch that no edge is pending in -/

theorem State.Legal.after_phaseGate (h : s.Legal) (hp : s.ph = .gate) : (phaseGate s).Legal := by
  have hc : s.Calm := h.calm hp rfl nofun nofun
  rw [phaseGate_eq]
  split <;> exact h.moveIdle hc rfl rfl rfl nofun nofun

theorem State.Legal.after_phaseKnobA (h : s.Legal) (hp : s.ph = .knobA) : (phaseKnobA s).Legal := by
  have hc : s.Calm := h.calm hp rfl nofun nofun
  rw [phaseKnobA_eq]
  split <;> exact h.moveIdle hc rfl rfl rfl nofun nofun

theorem State.Legal.after_phaseKWait (h : s.Legal) (hp : s.ph = .kWait) : (phaseKWait s).Legal := by
  have hc : s.Calm := h.calm hp rfl nofun nofun
  rw [phaseKWait_eq]
  split <;> exact h.moveIdle hc rfl rfl rfl nofun nofun

theorem State.Legal.after_phaseWdr (h : s.Legal) (hp : s.ph = .wdr) : (phaseWdr s).Legal :=
  h.moveIdle (h.calm hp rfl nofun nofun) rfl rfl rfl nofun fun _ => Nat.zero_lt_succ _

theorem State.Legal.after_phaseKSettle (h : s.Legal) (hp : s.ph = .kSettle) : (phaseKSettle s).Legal := by
  refine h.after_waitPhase (by rw [hp]; rfl) (fun u hu hup h0 => ?_) fun u hu => hu.after_phaseKWait rfl
  exact hu.moveIdle (hu.calm_of_dly h0 (hup.trans hp) nofun nofun) rfl rfl rfl nofun nofun

theorem State.Legal.after_phaseEndDly (h : s.Legal) (hp : s.ph = .endDly) : (phaseEndDly s).Legal := by
  refine h.after_waitPhase (by rw [hp]; rfl) (fun u hu hup h0 => ?_) fun u hu => hu.after_phaseWdr rfl
  exact hu.moveIdle (hu.calm_of_dly h0 (hup.trans hp) nofun nofun) rfl rfl rfl nofun nofun

/-- A channel's new level is in its range (44_feedback_coordinator.md R166, R167). -/
theorem feedbackLevel_mem_range {top floor level : Byte} (sig : Bool) (h : floor ≤ level ∧ level ≤ top) :
    floor ≤ feedbackLevel top floor sig level ∧ feedbackLevel top floor sig level ≤ top := by
  obtain ⟨hfloor, htop⟩ := h
  unfold feedbackLevel
  split
  · exact ⟨BitVec.le_trans hfloor htop, BitVec.le_refl _⟩
  · split
    · constructor <;> bv_omega
    · exact ⟨hfloor, htop⟩

theorem State.Legal.after_feedbackLevels (h : s.Legal) : State.Legal { s with fb := feedbackLevels s.sig s.fb } where
  __ := h
  fb_range c := by
    rw [feedbackLevels_getElem]
    exact feedbackLevel_mem_range s.sig[c] (h.fb_range c)

theorem State.Legal.after_phaseFeed (h : s.Legal) (hp : s.ph = .feed) : (phaseFeed s).Legal :=
  h.after_feedbackLevels.moveIdle (h.after_feedbackLevels.calm hp rfl nofun nofun) rfl rfl rfl nofun nofun

/-! The load (40_config_decoder.md) -/

/-- A decoded record is written to the table, and no other is half read. -/
theorem State.Legal.writeDesc (h : s.Legal) (hp : s.ph = .load) {d : Instr} (hd : d.wellFormed = true)
    (i : Fin Config.nSlots) : State.Legal { s with desc := s.desc.set i.val d i.isLt, recBuf := [] } where
  __ := h
  desc_wf j := by
    have := h.desc_wf j
    simp only [Fin.getElem_fin, Vector.getElem_set] at this ⊢
    split
    · exact hd
    · exact this
  act2_row hq := by simp [hp] at hq
  macro_row hq := by simp [hp, Phase.inMacro] at hq
  mi_le hq := by simp [hp] at hq
  mi_lt hq := by simp [hp] at hq
  buf_empty _ := rfl
  buf_open := rfl

/-- The entry of `ConfigDecodeError` with one of its records (60_exceptions.md R201, R204). -/
theorem State.Legal.after_raise (h : s.Legal) (hp : s.ph = .load) {c : DecodeCause} {i : Fin Config.nSlots}
    {tag len : Byte} (he : ErrRecord.legal ⟨c.code, BitVec.ofNat 3 i.val, tag, len⟩) :
    (raiseConfigDecodeError c i tag len s).Legal where
  __ := h
  key_slot := nofun
  event_slot := nofun
  act2_row := nofun
  macro_row := nofun
  mi_le := nofun
  mi_lt := nofun
  pending := nofun
  dly_lt := (h.dly_eq_zero hp rfl).trans_le (Nat.zero_le _)
  buf_empty _ := rfl
  buf_open := rfl
  err_phase := ⟨fun _ => rfl, fun _ => rfl⟩
  err_legal _ := he

theorem State.Legal.after_loadDecoded (h : s.Legal) (hp : s.ph = .load) (got : List Byte) :
    (loadDecoded got s).Legal := by
  have hdly : s.dly = 0 := h.dly_eq_zero hp rfl
  have herr : s.cfgErr = false := Bool.eq_false_iff.2 (mt h.err_phase.1 (by rw [hp]; nofun))
  have hwrite {d : Instr} (hd : decode got = .done d) := h.writeDesc hp (wellFormed_of_decode_done hd) s.li
  obtain ⟨hd, e⟩ | ⟨d, i, hd, -, e⟩ | ⟨d, hd, -, e⟩ | ⟨b, hd, e⟩ | ⟨n, hd, e⟩ := loadDecoded_cases got s <;> rw [e]
  · exact { h with buf_empty := fun hq => absurd hp hq, buf_open := hd }
  · exact (hwrite hd).moveIdle ⟨hdly, rfl, herr⟩ rfl rfl rfl nofun nofun
  · exact (hwrite hd).moveIdle ⟨hdly, rfl, herr⟩ rfl rfl rfl nofun fun _ => Nat.zero_lt_succ _
  · exact h.after_raise hp ⟨toNat_recordIndex_le s.li, .inl ⟨rfl, three_le_of_decode_badTag hd, rfl⟩⟩
  · exact h.after_raise hp ⟨toNat_recordIndex_le s.li, .inr ⟨rfl, rfl, eleven_le_of_decode_badMacroLength hd⟩⟩

/-! A key's edge, from `SCAN` to `NEXT` (45_main_loop.md R181, R184) -/

/-- The two edges are those of a sample that differs from the stored bit (R106). -/
theorem edgeOf_rising_iff (last p : Bool) : edgeOf last p = .rising ↔ p ≠ last ∧ p = true := by
  cases last <;> cases p <;> decide

theorem edgeOf_falling_iff (last p : Bool) : edgeOf last p = .falling ↔ p ≠ last ∧ p = false := by
  cases last <;> cases p <;> decide

/-- A key's edge is dispatched: what `SCAN` hands to `ACT` is the edge's event. -/
theorem State.Legal.dispatchEdge (h : s.Legal) (hp : s.ph = .scan) {k : Fin Config.nKeys} (hk : keyOf s.sl = some k)
    {ev : KeyEvent} (hne : s.cp ≠ s.last[k]) (hev : s.cp = true ↔ ev = .press) (htr : ev ≠ .trigger) :
    State.Legal { s with ev := ev, ph := .act } := by
  refine h.move (h.calm hp rfl nofun nofun) rfl nofun h.mi_range
    ⟨nofun, fun _ => ?_, nofun, nofun, nofun, nofun, fun _ k' hk' => ?_⟩
  · have hsl : s.sl.val < Config.nKeys := h.key_slot (by rw [hp]; rfl)
    exact ⟨fun he => absurd he htr, fun hge => absurd hsl (Nat.not_lt_of_le hge)⟩
  · obtain rfl : k = k' := Option.some.inj (hk.symm.trans hk')
    exact ⟨hne, hev⟩

/-- `CP` takes the sample: no edge is pending yet (R181). -/
theorem State.Legal.after_sample (h : s.Legal) (hp : s.ph = .scan) (p : Pin) :
    State.Legal { takeSample p s with cp := pinAnswer s } :=
  { h with pending := by simp [hp, Phase.edgePending] }

theorem State.Legal.after_scanEdge (h : s.Legal) (hp : s.ph = .scan) {k : Fin Config.nKeys} (hk : keyOf s.sl = some k) :
    (scanEdge (edgeOf s.last[k] s.cp) s).Legal := by
  have hkey : s.sl.val < Config.nKeys := h.key_slot (by rw [hp]; rfl)
  have hc : s.Calm := h.calm hp rfl nofun nofun
  cases he : edgeOf s.last[k] s.cp with
  | rising =>
    obtain ⟨hne, hcp⟩ := (edgeOf_rising_iff _ _).1 he
    exact h.dispatchEdge hp hk hne (by simp [hcp]) nofun
  | falling =>
    obtain ⟨hne, hcp⟩ := (edgeOf_falling_iff _ _).1 he
    exact h.dispatchEdge hp hk hne (by simp [hcp]) nofun
  | hold => exact h.moveIdle hc rfl rfl rfl nofun fun _ => hkey
  | idle => exact h.moveIdle hc rfl rfl rfl nofun fun _ => hkey

/-- The pending edge of a key waits for its commit (R111). -/
theorem State.Legal.toCommit (h : s.Legal) (hc : s.Calm) (hpend : s.ph.edgePending = true)
    (hsl : s.sl.val < Config.nKeys) {p : Phase} (hp : p = .cool ∨ p = .commit) : (s.goto p).Legal := by
  refine h.move hc rfl ?_ h.mi_range ⟨fun _ => hsl, ?_, ?_, ?_, ?_, ?_, fun _ => h.pending hpend⟩
  all_goals rcases hp with rfl | rfl <;> nofun

theorem State.Legal.after_phaseCool (h : s.Legal) (hp : s.ph = .cool) : (phaseCool s).Legal :=
  h.after_delayCycle (by rw [hp]; rfl) fun tr hu =>
    hu.toCommit (hu.calm_of_dly rfl hp nofun nofun) (by rw [hp]; rfl) (h.key_slot (by rw [hp]; rfl)) (.inr rfl)

/-- After a dispatch a detent settles and a key's edge goes on to its commit (R184). -/
theorem State.Legal.after_phaseDone (h : s.Legal) (hp : s.ph = .done) : (phaseDone s).Legal := by
  have hc : s.Calm := h.calm hp rfl nofun nofun
  have hev : s.ev = .trigger ↔ Config.nKeys ≤ s.sl.val := h.event_slot (by rw [hp]; rfl)
  rw [phaseDone, phaseAfterDispatch_eq]
  by_cases he : s.ev = .trigger
  · rw [if_pos he]
    exact h.moveIdle hc rfl rfl rfl nofun nofun
  · have hsl : s.sl.val < Config.nKeys := Nat.lt_of_not_le (mt hev.2 he)
    rw [if_neg he]
    exact h.toCommit hc (by rw [hp]; rfl) hsl (by split <;> simp)

/-! The dispatch (45_main_loop.md R182, R183) -/

/-- `KNOB_B` hands a Trigger for a slot no key owns to `ACT` (R127). -/
theorem nKeys_le_slotOfDirection (cwLevel b : Bool) : Config.nKeys ≤ (slotOfDirection cwLevel b).val := by
  unfold slotOfDirection
  split <;> decide

theorem State.Legal.after_phaseKnobB (h : s.Legal) (hp : s.ph = .knobB) : (phaseKnobB s).Legal := by
  have hsl := nKeys_le_slotOfDirection Config.encCwLevel (pinAnswer s)
  refine h.move (h.calm hp rfl nofun nofun) rfl nofun h.mi_range
    ⟨nofun, fun _ => iff_of_true rfl hsl, nofun, nofun, nofun, nofun, fun _ k hk => ?_⟩
  exact absurd (keyOf_some hk ▸ k.isLt) (Nat.not_lt_of_le hsl)

/-- A dispatch goes on to another of its phases: it is enough that the phase's row of the tables is met. -/
theorem State.Legal.advance (h : s.Legal) (h0 : s.dly = 0) {q p : Phase} {m : Nat} (hq : s.ph = q)
    (hd : q.dispatching = true) (hp : p.dispatching = true) (hmi : m ≤ Config.macroMax)
    (hact2 : p = .act2 → s.ev = .trigger ∧ kindOf s.descriptor ≠ .macroKind)
    (hmacro : p.inMacro = true → kindOf s.descriptor = .macroKind ∧ s.ev ≠ .release)
    (hle : p = .mDown → m ≤ codeCount s.descriptor)
    (hlt : p = .mW1 ∨ p = .mUp ∨ p = .mW2 → m < codeCount s.descriptor) :
    State.Legal { s with mi := m, ph := p } := by
  subst hq
  have hc : s.Calm := h.calm_of_dly h0 rfl (fun hl => by simp [hl, Phase.dispatching] at hd)
    fun hf => by simp [hf, Phase.dispatching] at hd
  have hpend : s.ph.edgePending = true := Phase.edgePending_of_dispatching hd
  refine h.move hc rfl ?_ hmi ⟨?_, fun _ => h.event_slot hd, hact2, hmacro, hle, hlt, fun _ => h.pending hpend⟩
  · rintro rfl
    cases hp
  · intro hk
    cases p <;> simp_all [Phase.dispatching, Phase.ofKey]

/-- `DONE` ends the dispatch of every kind, on every event. -/
theorem State.Legal.toDone (h : s.Legal) (h0 : s.dly = 0) {q : Phase} (hq : s.ph = q) (hd : q.dispatching = true) :
    (s.goto .done).Legal :=
  h.advance h0 hq hd rfl h.mi_range nofun nofun nofun nofun

/-- The macro sequencer goes on to another of its phases, with `MI` at a code or, in `M_DOWN`, past the last. -/
theorem State.Legal.advanceMacro (h : s.Legal) (h0 : s.dly = 0) {q p : Phase} {m : Nat} (hq : s.ph = q)
    (hd : q.dispatching = true) (hp : p.inMacro = true) (hrow : kindOf s.descriptor = .macroKind ∧ s.ev ≠ .release)
    (hle : m ≤ codeCount s.descriptor) (hlt : p ≠ .mDown → m < codeCount s.descriptor) :
    State.Legal { s with mi := m, ph := p } := by
  have hcodes : codeCount s.descriptor ≤ Config.macroMax := codeCount_le_of_wellFormed (h.desc_wf s.sl)
  refine h.advance h0 hq hd (Phase.dispatching_of_inMacro hp) (hle.trans hcodes) ?_ (fun _ => hrow) (fun _ => hle)
    fun hp => hlt ?_
  · rintro rfl
    cases hp
  · rcases hp with rfl | rfl | rfl <;> nofun

theorem State.Legal.after_pulseDispatch {down up : PortEvent} (h : s.Legal) (hk : kindOf s.descriptor ≠ .macroKind)
    (ht : pulseDispatch down up s = .next t) : t.Legal := by
  obtain ⟨hp, -, rfl⟩ | ⟨hp, -, rfl⟩ | ⟨hp, he, rfl⟩ | ⟨hp, -, rfl⟩ := pulseDispatch_next ht
  · exact (h.after_log down).toDone (h.dly_eq_zero hp rfl) hp rfl
  · exact (h.after_log up).toDone (h.dly_eq_zero hp rfl) hp rfl
  · exact (h.after_log down).advance (h.dly_eq_zero hp rfl) hp rfl rfl h.mi_range (fun _ => ⟨he, hk⟩) nofun nofun nofun
  · exact (h.after_log up).toDone (h.dly_eq_zero hp rfl) hp rfl

theorem State.Legal.after_execMacroSeq {codes : List Byte} (h : s.Legal) (hdesc : s.descriptor = .macroSeq codes)
    (ht : execMacroSeq codes s = .next t) : t.Legal := by
  have hkind : kindOf s.descriptor = .macroKind := by rw [hdesc]; rfl
  obtain ⟨hp, rfl⟩ | ⟨hp, c, hcode, rfl⟩ | ⟨hp, -, rfl⟩ | ⟨hp, rfl⟩ | ⟨hp, c, -, rfl⟩ | ⟨hp, rfl⟩ :=
    execMacroSeq_next ht
  · by_cases he : s.ev = .release
    · rw [macroAct_release he]
      exact h.toDone (h.dly_eq_zero hp rfl) hp rfl
    · rw [macroAct_start he]
      exact h.advanceMacro (h.dly_eq_zero hp rfl) hp rfl rfl ⟨hkind, he⟩ (Nat.zero_le _) (absurd rfl)
  all_goals have hrow := h.macro_row (by rw [hp]; rfl)
  · have hmi : s.mi < codeCount s.descriptor := by rw [hdesc]; exact (List.getElem?_eq_some_iff.1 hcode).1
    exact (h.after_log _).advanceMacro (h.dly_eq_zero hp rfl) hp rfl rfl hrow hmi.le fun _ => hmi
  · exact h.toDone (h.dly_eq_zero hp rfl) hp rfl
  · have hmi := h.mi_lt (.inl hp)
    exact h.after_delayCycle (by rw [hp]; rfl) fun _ hu => hu.advanceMacro rfl hp rfl rfl hrow hmi.le fun _ => hmi
  · have hmi := h.mi_lt (.inr (.inl hp))
    exact (h.after_log _).advanceMacro (h.dly_eq_zero hp rfl) hp rfl rfl hrow hmi.le fun _ => hmi
  · have hmi := h.mi_lt (.inr (.inr hp))
    exact h.after_delayCycle (by rw [hp]; rfl) fun _ hu => hu.advanceMacro rfl hp rfl rfl hrow hmi (absurd rfl)

theorem State.Legal.after_exec (h : s.Legal) (ht : exec s.descriptor s = .next t) : t.Legal := by
  cases hdesc : s.descriptor with
  | kbd m c =>
    rw [hdesc] at ht
    exact h.after_pulseDispatch (by rw [hdesc]; nofun) ht
  | cons k =>
    rw [hdesc] at ht
    exact h.after_pulseDispatch (by rw [hdesc]; nofun) ht
  | macroSeq codes =>
    rw [hdesc] at ht
    exact h.after_execMacroSeq hdesc ht

/-! One cycle and one step -/

theorem State.Legal.after_phaseCycle (h : s.Legal) (ht : phaseCycle s = .next t) : t.Legal := by
  obtain ⟨hp, rfl⟩ | ⟨hp, rfl⟩ | ⟨-, rfl⟩ | ⟨hp, -, rfl⟩ | ⟨hp, k, hk, rfl⟩ | ⟨-, -, he⟩ | ⟨hp, rfl⟩ | ⟨hp, rfl⟩ |
    ⟨hp, k, hk, rfl⟩ | ⟨hp, i, hi, -, rfl⟩ | ⟨hp, -, rfl⟩ | ⟨hp, rfl⟩ | ⟨hp, rfl⟩ | ⟨hp, rfl⟩ | ⟨hp, rfl⟩ | ⟨hp, rfl⟩ |
    ⟨hp, rfl⟩ | ⟨hp, rfl⟩ := phaseCycle_cases ht
  · exact h.after_phaseGate hp
  · exact h.moveIdle (h.calm hp rfl nofun nofun) rfl rfl rfl nofun nofun
  · exact h
  · exact (h.after_log _).after_loadDecoded hp _
  · exact (h.after_sample hp (keyPin k)).after_scanEdge hp hk
  · exact h.after_exec he
  · exact h.after_phaseDone hp
  · exact h.after_phaseCool hp
  · exact h.moveIdle (h.calm hp rfl nofun nofun) rfl rfl rfl nofun fun _ => keyOf_some hk ▸ k.isLt
  · exact h.moveIdle (h.calm hp rfl nofun nofun) rfl rfl rfl nofun fun _ => hi
  · exact h.moveIdle (h.calm hp rfl nofun nofun) rfl rfl rfl nofun nofun
  · exact h.after_phaseKnobA hp
  · exact h.after_phaseKnobB hp
  · exact h.after_phaseKSettle hp
  · exact h.after_phaseKWait hp
  · exact h.after_phaseFeed hp
  · exact h.after_phaseEndDly hp
  · exact h.after_phaseWdr hp

/-- Settles O44: a reset is to a legal state, and a cycle leads from a legal state to one. -/
theorem everyStepKeepsLegality : Obligations.EveryStepKeepsLegality := by
  intro s t h ht
  obtain ⟨-, rfl⟩ | ⟨-, hc⟩ := step_cases ht
  · exact h.after_passEdge.after_takeReset
  · exact h.after_passEdge.after_phaseCycle hc

end Sys2Proof.Machine
end

section
/-! SUPPORT. What a transaction shows at the ports (O54), the reset values (O41), the bootloader gate (O9), and a record
placed by the loader (O7). -/

namespace Sys2Proof.Machine

variable {s : State}

/-! The ports (10_state.md R42, R44, R45) -/

/-- The three levels stand in the word of the LED port with channel 0 lowest. -/
theorem extractLsb_levels (l0 l1 l2 : Byte) :
    (l2 ++ l1 ++ l0).extractLsb 7 0 = l0 ∧ (l2 ++ l1 ++ l0).extractLsb 15 8 = l1 ∧
      (l2 ++ l1 ++ l0).extractLsb 23 16 = l2 :=
  ⟨BitVec.extractLsb'_append_eq_right,
    (BitVec.extractLsb'_append_eq_of_le (by decide)).trans BitVec.extractLsb'_append_eq_right,
    (BitVec.extractLsb'_append_eq_of_le (by decide)).trans BitVec.extractLsb'_append_eq_left⟩

/-- Settles O54: each port reads its transaction's arguments. -/
theorem portsCarryTheArguments : Obligations.PortsCarryTheArguments := by
  refine ⟨fun m c => ?_, fun _ => ⟨rfl, rfl⟩, fun l0 l1 l2 => ⟨_, rfl, extractLsb_levels l0 l1 l2⟩, fun _ _ _ => rfl⟩
  rw [BitVec.ofNat_toNat]
  exact ⟨rfl, rfl⟩

/-! Reset and the bootloader gate -/

/-- Settles O41: the reset state register by register, its vectors entry by entry. -/
theorem resetValues : Obligations.ResetValues :=
  ⟨rfl, rfl, rfl, rfl, reset_last, reset_sig, reset_fb, rfl⟩

theorem step_gate_pressed {rest : List Bool} (hr : NoReset s) (hp : s.ph = .gate) (hpin : s.pinScript = true :: rest) :
    step s = .next { s with ph := .bootReq, li := 0, pinScript := rest, trace := s.trace ++ [.sp .key1 true] } := by
  rw [step_noReset hr, phaseCycle_gate hp, phaseGate_eq, pinAnswer_cons s true rest hpin, hpin]
  rfl

theorem step_bootReq (hr : NoReset s) (hp : s.ph = .bootReq) :
    step s = .next { s with ph := .boot, trace := s.trace ++ [.bootldr] } := by
  rw [step_noReset hr, phaseCycle_bootReq hp, phaseBootReq_eq]

/-- Settles O9: the gate's step and the request's lead to `BOOT`, which is never left. -/
theorem bootloaderRequestThenNothing : Obligations.BootloaderRequestThenNothing := by
  intro s rest k hr hp hpin
  have hgate := step_gate_pressed hr hp hpin
  set s₁ : State := { s with ph := .bootReq, li := 0, pinScript := rest, trace := s.trace ++ [.sp .key1 true] }
  have hreq : step s₁ = .next { s₁ with ph := .boot, trace := s₁.trace ++ [.bootldr] } := step_bootReq hr rfl
  set s₂ : State := { s₁ with ph := .boot, trace := s₁.trace ++ [.bootldr] }
  have hstay : runFor k s₂ = .next s₂ := terminalPhasesStayForEver s₂ k hr (.inl rfl)
  rw [runFor_succ hgate, runFor_succ hreq, hstay]
  simp [s₂, s₁]

/-! A placed record (log 12) -/

theorem withFetchWord_of_decoded {nbits w : Nat} {i : Instr} (h : decodeTableWord nbits w = some i) (s : State) :
    s.withFetchWord nbits w = placeDecoded (recordBytes nbits w) i s := by
  rw [State.withFetchWord, placeRecord, h]

theorem recordBytes_getElem? {k : Nat} (hk : k < Config.recBytes) (nbits w : Nat) :
    (recordBytes nbits w)[k]? = some (recordByte (w % 2 ^ nbits) k) := by
  simp [recordBytes, hk]

theorem recordBase_add_lt {k : Nat} (i : Fin Config.nSlots) (hk : k < Config.recBytes) :
    recordBase i + k < Config.cfgBytes := by
  have hi : i.val < 6 := i.isLt
  simp only [recordBase, Config.recBytes, Config.cfgBytes] at hk ⊢
  omega

theorem placeDecoded_descriptor (bytes : List Byte) (i : Instr) (s : State) :
    (placeDecoded bytes i s).descriptor = i :=
  Vector.getElem_set_self s.sl.isLt

/-- Settles O7: the loader stores the record's bytes and puts their descriptor where `ACT` runs it. -/
theorem placedRecordRunsAtTheNextStep : Obligations.PlacedRecordRunsAtTheNextStep := by
  intro s nbits w i h
  rw [withFetchWord_of_decoded h]
  have hdesc := placeDecoded_descriptor (recordBytes nbits w) i s
  refine ⟨fun k hk => ?_, hdesc, ?_⟩
  · exact Memory.read_writeBytes s.store _ k _ _ (recordBytes_getElem? hk nbits w) (recordBase_add_lt s.sl hk)
  · rw [step_dispatch (s := placeDecoded _ i s) (p := .act) rfl rfl rfl nofun, hdesc]

end Sys2Proof.Machine
end

section
/-! SUPPORT. The length of a dispatch (O24) and of each fixed wait (O25). -/

namespace Sys2Proof.Machine

variable {s : State}

/-! The emissions of a dispatch (43_action_dispatcher.md R154) -/

/-- The number of HID transactions of a trace. -/
def emissions (t : List PortEvent) : Nat := (t.filter fun e => e.hidPort.isSome).length

theorem emissions_append (t u : List PortEvent) : emissions (t ++ u) = emissions t + emissions u := by
  simp [emissions]

theorem emissions_macroTrace (codes : List Byte) : emissions (macroTrace codes) = 2 * codes.length := by
  induction codes with
  | nil => rfl
  | cons c codes ih =>
    have hstep : emissions (macroStepTrace c) = 2 := rfl
    rw [macroTrace, List.flatMap_cons, emissions_append, hstep, ← macroTrace, ih, List.length_cons]
    omega

/-- Settles O24, by the kind and the event. -/
theorem dispatchLengthByKindAndEvent : Obligations.DispatchLengthByKindAndEvent := by
  intro d ev
  cases d with
  | kbd m c => cases ev <;> exact ⟨rfl, rfl⟩
  | cons k => cases ev <;> exact ⟨rfl, rfl⟩
  | macroSeq codes =>
    cases ev with
    | press => exact ⟨emissions_macroTrace codes, traceMs_macroTrace codes⟩
    | release => exact ⟨rfl, rfl⟩
    | trigger => exact ⟨emissions_macroTrace codes, traceMs_macroTrace codes⟩

/-! The cycles of a wait (70_reset_and_hazards.md R262) -/

section Wait

variable {ms : Nat} {leave : State → State}
  (hstep : ∀ d tr,
    step { s with dly := d, trace := tr } = .next (delayCycle ms leave { s with dly := d, trace := tr }))
  (h0 : s.dly = 0)
include hstep h0

/-- A wait in progress: `k` of its cycles have passed, and only `DLY` has changed since the first. -/
theorem run_delay_going {k : Nat} (hk : 0 < k) (hlt : k < ms * Config.ticksPerMs) :
    runFor k s = .next { s with dly := ms * Config.ticksPerMs - k, trace := s.trace ++ [.dly ms] } := by
  induction k, hk using Nat.le_induction with
  | base =>
    have hms : 0 < ms := Nat.pos_of_mul_pos_right (Nat.zero_lt_of_lt hlt)
    have hfirst : step s = .next (delayCycle ms leave s) := hstep s.dly s.trace
    rw [runFor_one hfirst, delayCycle_first ms leave s h0 hms, if_neg (by omega)]
  | succ k _ ih =>
    rw [runFor_add (ih (by omega)), runFor_one (hstep _ _), delayCycle_going _ _ _ (by simp; omega)]
    rfl

/-- What a fixed wait does from its first cycle on, where `leave` is how its phase is left. -/
theorem fixedWait_of_steps {t : State} (hms : s.ph.waitMs = ms) (hpos : 0 < s.ph.waitMs)
    (hleave : leave { s with dly := 0, trace := s.trace ++ [.dly s.ph.waitMs] } = t) :
    (∀ k, 0 < k → k < s.ph.waitMs * Config.ticksPerMs → runFor k s = .next { s with
      dly := s.ph.waitMs * Config.ticksPerMs - k
      trace := s.trace ++ [.dly s.ph.waitMs] }) ∧
    runFor (s.ph.waitMs * Config.ticksPerMs) s = .next t := by
  subst hms hleave
  exact ⟨fun _ hk hlt => run_delay_going hstep h0 hk hlt, run_delay s hstep h0 hpos⟩

end Wait

theorem exists_codes_of_macroKind {d : Instr} (h : kindOf d = .macroKind) : ∃ codes, d = .macroSeq codes := by
  cases d with
  | kbd _ _ | cons _ => cases h
  | macroSeq codes => exact ⟨codes, rfl⟩

/-- Settles O25, by the phase: each waits by the same timer, and leaves by its own row. -/
theorem fixedWaitsTakeTheirTime : Obligations.FixedWaitsTakeTheirTime := by
  intro s hr h0 hp hpos
  obtain hp | hp | hp | ⟨hp | hp, hk⟩ := hp
  · refine fixedWait_of_steps (leave := State.goto .commit) (fun d tr => ?_) h0 (congrArg Phase.waitMs hp) hpos ?_
    · exact (step_noReset (s := { s with dly := d, trace := tr }) hr).trans (phaseCycle_cool hp)
    · simp [State.goto, hp, h0]
  · have hset : 0 < Config.tSettle := by rw [hp] at hpos; exact hpos
    refine fixedWait_of_steps (leave := State.goto .kWait) (fun d tr => ?_) h0 (congrArg Phase.waitMs hp) hpos ?_
    · exact step_kSettle_pos (s := { s with dly := d, trace := tr }) hr hp hset
    · simp [State.goto, hp, h0]
  · have hloop : 0 < Config.tLoop := by rw [hp] at hpos; exact hpos
    refine fixedWait_of_steps (leave := State.goto .wdr) (fun d tr => ?_) h0 (congrArg Phase.waitMs hp) hpos ?_
    · exact step_endDly_pos (s := { s with dly := d, trace := tr }) hr hp hloop
    · simp [State.goto, hp, h0]
  · obtain ⟨codes, hdesc⟩ := exists_codes_of_macroKind hk
    refine fixedWait_of_steps (leave := State.goto .mUp) (fun d tr => ?_) h0 (congrArg Phase.waitMs hp) hpos ?_
    · exact (step_macro (s := { s with dly := d, trace := tr }) hr hdesc hp rfl nofun).trans (execMacroSeq_mW1 hp)
    · simp [State.goto, hp, h0]
  · obtain ⟨codes, hdesc⟩ := exists_codes_of_macroKind hk
    refine fixedWait_of_steps (leave := macroAdvance) (fun d tr => ?_) h0 (congrArg Phase.waitMs hp) hpos ?_
    · exact (step_macro (s := { s with dly := d, trace := tr }) hr hdesc hp rfl nofun).trans (execMacroSeq_mW2 hp)
    · simp [macroAdvance, hp, h0]

end Sys2Proof.Machine
end

section
/-! SUPPORT. Where a step stops (O46), and that it makes at most one port transaction (O47). -/

namespace Sys2Proof.Machine

variable {s t : State}

/-! The stops of a step: a reset is none, and with `rst` low they are the cycle's -/

theorem step_ne_refused (s : State) (r : Refusal) : step s ≠ .refused r := by
  cases hr : rstNow s with
  | true => rw [step_reset hr]; nofun
  | false => rw [step_low hr]; exact phaseCycle_ne_refused _ r

theorem step_fault_iff (s : State) (f : Fault) : step s = .fault f ↔ rstNow s = false ∧ CycleStops s f := by
  cases hr : rstNow s with
  | true => simp [step_reset hr]
  | false =>
    rw [step_low hr, phaseCycle_fault_iff]
    exact (and_iff_right rfl).symm

/-- Settles O46, by the stops of a cycle. -/
theorem stepStopsExactlyWhereNoRuleSpeaks : Obligations.StepStopsExactlyWhereNoRuleSpeaks :=
  fun s => ⟨step_ne_refused s, step_fault_iff s⟩

/-! The transactions of a cycle (10_state.md R40) -/

/-- The trace grows by one event or none from `s` to `t`. -/
def LogsAtMostOne (s t : State) : Prop := t.trace = s.trace ∨ ∃ e, t.trace = s.trace ++ [e]

theorem logsAtMostOne_of_length_le {added : List PortEvent} (htr : t.trace = s.trace ++ added)
    (hlen : added.length ≤ 1) : LogsAtMostOne s t := by
  match added with
  | [] => exact .inl (htr.trans (List.append_nil _))
  | [e] => exact .inr ⟨e, htr⟩

/-- A cycle of a wait logs the wait's event or nothing. -/
theorem delayCycle_goto_logsAtMostOne (ms : Nat) (p : Phase) (s : State) :
    LogsAtMostOne s (delayCycle ms (State.goto p) s) := by
  obtain ⟨_, _, _, added, e, hlen⟩ := DispatchWrites.of_delayCycle (s := s) ms (p := p) (f := id) fun _ => rfl
  exact logsAtMostOne_of_length_le (congrArg State.trace e) hlen

/-- A phase that may wait no time logs what the wait does, or what the next phase does. -/
theorem waitPhase_goto_logsAtMostOne (ms : Nat) (p : Phase) {next : State → State} (s : State)
    (hnext : LogsAtMostOne s (next (s.goto p))) : LogsAtMostOne s (waitPhase ms (State.goto p) next s) := by
  obtain ⟨-, e⟩ | ⟨-, e⟩ := waitPhase_cases ms (State.goto p) next s <;> rw [e]
  · exact hnext
  · exact delayCycle_goto_logsAtMostOne ms p s

theorem exec_logsAtMostOne {i : Instr} (h : exec i s = .next t) : LogsAtMostOne s t := by
  obtain ⟨_, _, _, added, rfl, hlen⟩ := exec_dispatchWrites h
  exact logsAtMostOne_of_length_le rfl hlen

/-- Everything one cycle can do to the trace. -/
theorem phaseCycle_logsAtMostOne (h : phaseCycle s = .next t) : LogsAtMostOne s t := by
  obtain ⟨-, rfl⟩ | ⟨-, rfl⟩ | ⟨-, rfl⟩ | ⟨-, -, rfl⟩ | ⟨hp, k, hk, rfl⟩ | ⟨-, -, he⟩ | ⟨-, rfl⟩ | ⟨-, rfl⟩ |
    ⟨-, k, -, rfl⟩ | ⟨-, i, -, -, rfl⟩ | ⟨-, -, rfl⟩ | ⟨-, rfl⟩ | ⟨-, rfl⟩ | ⟨-, rfl⟩ | ⟨-, rfl⟩ | ⟨-, rfl⟩ |
    ⟨-, rfl⟩ | ⟨-, rfl⟩ := phaseCycle_cases h
  · exact .inr ⟨_, rfl⟩
  · exact .inr ⟨_, rfl⟩
  · exact .inl rfl
  · exact .inr ⟨_, (loadDecoded_frame _ _).1⟩
  · exact .inr ((scan_samplesOne hp hk).trace.imp' _ fun _ => id)
  · exact exec_logsAtMostOne he
  · exact .inl rfl
  · exact delayCycle_goto_logsAtMostOne _ _ s
  · exact .inl rfl
  · exact .inl rfl
  · exact .inl rfl
  · exact .inr ⟨_, rfl⟩
  · exact .inr ⟨_, rfl⟩
  · exact waitPhase_goto_logsAtMostOne _ _ s (.inr ⟨_, rfl⟩)
  · exact .inr ⟨_, rfl⟩
  · exact .inr ⟨_, rfl⟩
  · exact waitPhase_goto_logsAtMostOne _ _ s (.inr ⟨_, rfl⟩)
  · exact .inr ⟨_, rfl⟩

/-- Settles O47: with `rst` low a step is a cycle. -/
theorem atMostOneTransactionPerCycle : Obligations.AtMostOneTransactionPerCycle := by
  intro s t hr h
  rw [step_low hr] at h
  have hcycle : LogsAtMostOne (passEdge s) t := phaseCycle_logsAtMostOne h
  exact hcycle

end Sys2Proof.Machine
end
